-- ==== Sys2Proof/Word.lean ====
section
/-! DEFINITION. The words of the block: bytes, 32-bit register values and addresses, and a sequence of exactly 4 bytes
(a type code, or half of the container signature). Byte order is not decided here (Machine/Bytes.lean). -/

namespace Sys2Proof

/-- A byte, 8 bits, bit 0 least significant (00_scope R6). -/
abbrev Byte := BitVec 8

/-- A control register's value, a bus word, a bus address or a `UInt32` of the wire format (00_scope R7, 20_memory R50). -/
abbrev Word := BitVec 32

/-- A 4-byte sequence `t[0..4)`: a type code (40_typecode R100) or half of `P_SIG`. `b0` is `t[0]`. -/
structure Bytes4 where
  b0 : Byte
  b1 : Byte
  b2 : Byte
  b3 : Byte
  deriving DecidableEq, Repr

/-- The four bytes in index order. -/
abbrev Bytes4.toList (t : Bytes4) : List Byte := [t.b0, t.b1, t.b2, t.b3]

end Sys2Proof
end

