-- ==== Sys2Proof/Config.lean ====
section
/-! DEFINITION. What an implementation fixes (the parameters of 00_scope R5), the error codes (60_exceptions R200), and the
free values: constants with no body, applied to a counter or to the value that has no stated representation. -/

namespace Sys2Proof

/-- The parameters of 00_scope R5. A block's parameters never change; `State` carries them so that every statement about
every state holds for every choice of them (log entry 1). -/
structure Params where
  /-- `P_SIG[0..4)`. -/
  sigHi : Bytes4
  /-- `P_SIG[4..8)`. -/
  sigLo : Bytes4
  /-- `P_IBUF_SIZE`, 12 to 2^28. -/
  ibufSize : Nat
  /-- `P_OBUF_SIZE`, 12 to 2^28. -/
  obufSize : Nat
  /-- `P_MAX_SEGMENTS`, at least 1; `none` is `UNBOUNDED`. -/
  maxSegments : Option Nat
  /-- `P_STORE_BYTES`; `none` is `UNBOUNDED`. -/
  storeBytes : Option Nat
  deriving DecidableEq, Repr

/-- `P_SIG`, the 8 bytes in order. -/
abbrev Params.sig (p : Params) : List Byte := p.sigHi.toList ++ p.sigLo.toList

/-- DESIGN CHOICE (log entry 1, unsafe where a statement rests on it): the values `State.reset` carries. The signature is the
suggested default of 00_scope R5; the sizes and the unbounded store are those of 95_test_vectors section 0. -/
def Params.vectors : Params where
  sigHi := ⟨0x89, 0x50, 0x4E, 0x47⟩
  sigLo := ⟨0x0D, 0x0A, 0x1A, 0x0A⟩
  ibufSize := 256
  obufSize := 256
  maxSegments := none
  storeBytes := none

/-- The error kinds of 60_exceptions R200, code 0x00 (NONE) apart. -/
inductive ErrorCode where
  | formatError | typeCodeError | lengthMismatch | checksumMismatch | truncatedInput | signatureMismatch
  | illegalCommand | regionError | noStage | indexOutOfRange | capacityExceeded | outputOverflow
  deriving DecidableEq, Repr

/-- FREE VALUE (log entry 4, safe): what a read of a buffer byte that nothing has written gives, a fresh draw for each read
(93_implementation_defined U2, U3). -/
opaque Config.freeByte : Nat → Byte

/-- FREE VALUE (log entry 5, safe): how a command ends that read an unwritten IBUF byte: `some e`, it raises `e`; `none`, it
runs on the bytes drawn. 20_memory R65: such a command has no defined result. -/
opaque Config.uninitOutcome : Nat → Option ErrorCode

/-- FREE VALUE (log entry 8, safe): the value a 32-bit register shows for a number of 2^32 or more. 00_scope R12 states the
value only below 2^32. -/
opaque Config.wideValue : Nat → Word

/-- FREE VALUE (log entry 18, safe): the bus address of a host line where the address sum is 2^32 or more. Sums do not wrap
(00_scope R7) and addresses are 32 bits wide (20_memory R50); the spec gives such a line no access. -/
opaque Config.wideAddress : Nat → Word

end Sys2Proof
end

