-- ==== Sys2Proof/Syntax.lean ====
section
/-! DEFINITION. The commands of the block, one constructor per row of spec/opcode_table.json (30_encoding R72).
A command word carries no operand fields (30_encoding R71), so no constructor has an argument. -/

namespace Sys2Proof

inductive Instr where
  | tcCheck        -- TC_CHECK (40_typecode R107)
  | tcFromString   -- TC_FROM_STRING (40_typecode R108)
  | crcGen         -- CRC_GEN (41_crc R125)
  | crcCheck       -- CRC_CHECK (41_crc R126)
  | crcRaw         -- CRC_RAW (41_crc R127)
  | segNew         -- SEG_NEW (42_segment R143)
  | segDecode      -- SEG_DECODE (42_segment R146)
  | segEncode      -- SEG_ENCODE (42_segment R150)
  | segRead        -- SEG_READ (42_segment R152)
  | conNew         -- CON_NEW (43_container R175)
  | conDecode      -- CON_DECODE (43_container R172)
  | conEncode      -- CON_ENCODE (43_container R174)
  | conAppend      -- CON_APPEND (43_container R176)
  | conRemove      -- CON_REMOVE (43_container R183)
  deriving DecidableEq, Repr

end Sys2Proof
end

