-- ==== Sys2Proof/WellFormed.lean ====
section
/-! DEFINITION. What is well-formed before the machine sees it: a command, a command word's reserved field, and the
parameters. (The well-formedness of a segment record, 10_state R47, is a property of the state: Safety.lean.) -/

namespace Sys2Proof

/-- Every command is well-formed: a command word carries no operand fields (30_encoding R71), so there is nothing to check
in an `Instr`. What can be ill-formed is the word: `reservedClear`. -/
def Instr.wellFormed : Instr → Bool
  | .tcCheck | .tcFromString | .crcGen | .crcCheck | .crcRaw | .segNew | .segDecode | .segEncode | .segRead
  | .conNew | .conDecode | .conEncode | .conAppend | .conRemove => true

/-- 30_encoding R70: the field RSVD, bits [31:8], must be 0. -/
def reservedClear (w : Word) : Bool := w.extractLsb' 8 24 == 0

/-- The legal values of one buffer size (00_scope R5). -/
def bufferSizeLegal (n : Nat) : Bool := decide (12 ≤ n) && decide (n ≤ 2 ^ 28)

/-- The legal values of `P_MAX_SEGMENTS` (00_scope R5). -/
def maxSegmentsLegal : Option Nat → Bool
  | none => true
  | some n => decide (1 ≤ n)

/-- The legal parameters of 00_scope R5. `P_SIG` may be any 8 bytes and `P_STORE_BYTES` any number, so neither is checked. -/
def Params.wf (p : Params) : Bool :=
  bufferSizeLegal p.ibufSize && bufferSizeLegal p.obufSize && maxSegmentsLegal p.maxSegments

end Sys2Proof
end

