-- ==== Sys2Proof/Decode.lean ====
section
/-! DEFINITION. Decoding a command word (30_encoding R72, R74, R75), the encoder written from the same table, and the host's
reading of a table row. The decoder is total: `none` is exactly an illegal word, for which the engine raises IllegalCommand. -/

namespace Sys2Proof

/-- The opcode of 30_encoding R72 for the value of OP, bits [7:0]. `none`: not an opcode of the table (R74). -/
def decodeOp (op : Byte) : Option Instr :=
  match op with
  | 0x01 => some .tcCheck
  | 0x02 => some .tcFromString
  | 0x10 => some .crcGen
  | 0x11 => some .crcCheck
  | 0x12 => some .crcRaw
  | 0x20 => some .segNew
  | 0x21 => some .segDecode
  | 0x22 => some .segEncode
  | 0x23 => some .segRead
  | 0x30 => some .conNew
  | 0x31 => some .conDecode
  | 0x32 => some .conEncode
  | 0x33 => some .conAppend
  | 0x34 => some .conRemove
  | _ => none

/-- Decode a word written to CMD: `w[31:8]` first, then the table (30_encoding R72). -/
def decode (w : Word) : Option Instr :=
  if reservedClear w then decodeOp (w.extractLsb' 0 8) else none

/-- The whole word of a command (the column "word" of 30_encoding R72). -/
def encode : Instr → Word
  | .tcCheck => 0x00000001
  | .tcFromString => 0x00000002
  | .crcGen => 0x00000010
  | .crcCheck => 0x00000011
  | .crcRaw => 0x00000012
  | .segNew => 0x00000020
  | .segDecode => 0x00000021
  | .segEncode => 0x00000022
  | .segRead => 0x00000023
  | .conNew => 0x00000030
  | .conDecode => 0x00000031
  | .conEncode => 0x00000032
  | .conAppend => 0x00000033
  | .conRemove => 0x00000034

/-- The word whose low `nbits` bits are those of `w`, every bit above them 0. A command is one 32-bit word (30_encoding R70). -/
def tableWord (nbits w : Nat) : Nat := w % 2 ^ nbits

/-- The command the decoder reads from an instruction whose bits are `w`, numbered as spec/opcode_table.json numbers them.
A command word is never stored in memory: it is the data of one 32-bit bus write (log entry 15). -/
def decodeTableWord (nbits w : Nat) : Option Instr :=
  if tableWord nbits w < 2 ^ 32 then decode (BitVec.ofNat 32 (tableWord nbits w)) else none

end Sys2Proof
end

