-- ==== Sys2Proof/Machine/Bytes.lean ====
section
/-! DEFINITION. The byte-order helpers of 00_scope R8, the letter predicates of 00_scope R11, and reading 4 bytes of a byte
sequence. Every multi-byte integer is big-endian (20_memory R57, R58). -/

namespace Sys2Proof.Machine

/-- `be32(v)`: `v[31:24], v[23:16], v[15:8], v[7:0]` (00_scope R8). -/
def be32 (v : Word) : Bytes4 :=
  ⟨v.extractLsb' 24 8, v.extractLsb' 16 8, v.extractLsb' 8 8, v.extractLsb' 0 8⟩

/-- `rd_be32(b0 b1 b2 b3)`: the first byte is most significant (00_scope R8). -/
def rdBe32 (t : Bytes4) : Word := t.b0 ++ t.b1 ++ t.b2 ++ t.b3

/-- `pack4(t)` is `rd_be32(t)` (00_scope R8). -/
def pack4 (t : Bytes4) : Word := rdBe32 t

/-- `unpack4(v)` is `be32(v)` (00_scope R8). -/
def unpack4 (v : Word) : Bytes4 := be32 v

/-- The 4 bytes `s[k..k+4)`. Every use stands where `k + 4 ≤ |s|`, so the filler byte is never read (log entry 16). -/
def fourAt (s : List Byte) (k : Nat) : Bytes4 :=
  ⟨s.getD k 0, s.getD (k + 1) 0, s.getD (k + 2) 0, s.getD (k + 3) 0⟩

/-- `isLetter(b)`: the ASCII ranges `A–Z` and `a–z`, ends included (00_scope R11). -/
def isLetter (b : Byte) : Bool :=
  (decide (0x41 ≤ b) && decide (b ≤ 0x5A)) || (decide (0x61 ≤ b) && decide (b ≤ 0x7A))

/-- `allLetters(t)` (00_scope R11). -/
def allLetters (t : Bytes4) : Bool := isLetter t.b0 && isLetter t.b1 && isLetter t.b2 && isLetter t.b3

end Sys2Proof.Machine
end

