-- ==== Sys2Proof/Machine/State.lean ====
section
/-! DEFINITION. The state of the block as plain data (10_state.md), the host's accesses and the responses to them
(20_memory.md), the reasons a step can stop, and the state after reset (70_reset_and_hazards.md). -/

namespace Sys2Proof.Machine

/-- One buffer (IBUF or OBUF) as a list of (index, byte) pairs in one canonical form: indices strictly rising. A listed byte
has been written (its `written` flag is 1, 10_state R42); an unlisted byte has no value (70_reset R222). -/
abbrev Memory := List Host.Cell

/-- A segment record `{len, type, payload, crc}` (10_state R41, R47). -/
structure Segment where
  len : Word
  type : Bytes4
  payload : List Byte
  crc : Word
  deriving DecidableEq, Repr

/-- STAGE, the staging segment (10_state R40). -/
structure Stage where
  valid : Bool
  seg : Segment
  deriving DecidableEq, Repr

/-- The model's set of fault records (60_exceptions R205): a set over the two kinds, so one Bool a kind. -/
structure FaultSet where
  busError : Bool
  uninitRead : Bool
  deriving DecidableEq, Repr

/-- One host bus access (20_memory section 2). -/
inductive Access where
  | read8 (addr : Word)
  | read32 (addr : Word)
  | write8 (addr : Word) (b : Byte)
  | write32 (addr : Word) (w : Word)
  /-- An access of a width other than 8 or 32 bits: always a bus error (20_memory R55). -/
  | otherWidth (isWrite : Bool) (addr : Word)
  deriving DecidableEq, Repr

/-- What the outside world does next (00_scope R14, 70_reset R220). -/
inductive HostEvent where
  /-- The host issues one bus access. -/
  | access (a : Access)
  /-- The platform applies the reset (70_reset R220), between accesses. -/
  | reset
  /-- A second host agent issues an access: no run is defined (93_implementation_defined U9). -/
  | secondHost (a : Access)
  deriving DecidableEq, Repr

/-- The bus response to the last access (20_memory R53 to R55). -/
inductive BusResponse where
  /-- No access since reset. -/
  | none
  /-- A write was accepted and is complete. -/
  | done
  /-- The data of a read, zero-extended to the bus width. -/
  | data (w : Word)
  /-- The error response of a bus error. -/
  | error
  deriving DecidableEq, Repr

/-- Why a step ends in a fault: never. Every event the spec describes has a next state: a command error is a result
(60_exceptions R200), and both model-only faults (60_exceptions R205) are records in `State.faults`, after which the machine
goes on (log entries 5 and 6). So this inductive has no constructor, and no step can raise one. -/
inductive Fault : Type
  deriving DecidableEq, Repr

/-- Why a step refuses. -/
inductive Refusal where
  /-- Raised by an arm of `exec` whose instruction has no meaning yet. Safe: nothing is claimed about it. -/
  | notModelled (mnemonic : String)
  /-- Raised by `step` at an access of a second host agent (93_implementation_defined U9, 60_exceptions R213: "no run
  defined"). Safe: nothing can be proved about such a run. -/
  | secondHostAgent
  deriving DecidableEq, Repr

/-- The state of the block. The registers CMD, SEG_COUNT, STG_LEN, STG_TYPE, STG_CRC, ID, IBUF_SIZE, OBUF_SIZE, SIG_HI and
SIG_LO and the bit STATUS.STAGE_VALID are views of these fields (10_state R23, R24, R34 to R39): Machine/Registers.lean. -/
structure State where
  /-- The parameters of 00_scope R5; no step changes them. -/
  params : Params
  /-- STATUS.ERR (10_state R24). -/
  err : Bool
  /-- STATUS.REMOVED (10_state R24). -/
  removed : Bool
  /-- ERRCODE.CODE (10_state R25); `none` is code 0x00 (NONE). -/
  errcode : Option ErrorCode
  /-- TYPE_ARG (10_state R26). -/
  typeArg : Word
  /-- SRC_OFF (10_state R27). -/
  srcOff : Word
  /-- SRC_LEN (10_state R28). -/
  srcLen : Word
  /-- INDEX (10_state R29). -/
  index : Word
  /-- CRC_EXPECT (10_state R30). -/
  crcExpect : Word
  /-- TCFLAGS, its five flag bits (10_state R31). -/
  tcflags : BitVec 5
  /-- CRC_RESULT (10_state R32). -/
  crcResult : Word
  /-- OUT_LEN (10_state R33). -/
  outLen : Word
  /-- STAGE (10_state R40). -/
  stage : Stage
  /-- STORE (10_state R41). -/
  store : List Segment
  /-- IBUF with its written flags (10_state R42). -/
  ibuf : Memory
  /-- OBUF (10_state R43). -/
  obuf : Memory
  /-- The model-only fault records (60_exceptions R205). -/
  faults : FaultSet
  /-- The MODEL's own: the host's events still to come, next first (log entry 2). -/
  pending : List HostEvent
  /-- The MODEL's own: the bus response to the last access (log entry 3). -/
  resp : BusResponse
  /-- The MODEL's own: how many free values have been drawn (log entry 4). -/
  draws : Nat
  deriving DecidableEq, Repr

/-- The reset value of STAGE (10_state R40). -/
def Stage.reset : Stage := ⟨false, ⟨0, ⟨0, 0, 0, 0⟩, [], 0⟩⟩

/-- The state when reset ends, for the parameters `p` (70_reset R220, R221, R222). -/
def State.resetWith (p : Params) : State where
  params := p
  err := false
  removed := false
  errcode := none
  typeArg := 0
  srcOff := 0
  srcLen := 0
  index := 0
  crcExpect := 0
  tcflags := 0
  crcResult := 0
  outLen := 0
  stage := Stage.reset
  store := []
  ibuf := []
  obuf := []
  faults := ⟨false, false⟩
  pending := []
  resp := .none
  draws := 0

/-- The machine right after reset, with the parameters of log entry 1 and no host event to come (log entry 2). -/
def State.reset : State := State.resetWith Params.vectors

end Sys2Proof.Machine
end

