-- ==== Sys2Proof/Machine/Ops.lean ====
section
/-! DEFINITION. The named operations over memory and over the end of a command. `State.raise` is this hardware's one way of
taking an error (60_exceptions R201: no trap entry, R206); `State.finish` is success (60_exceptions R202). -/

namespace Sys2Proof.Machine

/-- The byte written at index `i`, if any was (10_state R42). -/
def Memory.read : Memory → Nat → Option Byte
  | [], _ => none
  | (k, v) :: m, i => if k = i then some v else Memory.read m i

/-- Write one byte and so set its `written` flag (20_memory R52); the list stays sorted, one entry an index. -/
def Memory.write : Memory → Nat → Byte → Memory
  | [], i, b => [(i, b)]
  | (k, v) :: m, i, b =>
    if i < k then (i, b) :: (k, v) :: m
    else if i = k then (i, b) :: m
    else (k, v) :: Memory.write m i b

/-- `MemWrite(_, i, bs)` of 00_scope R9: `bs` at the indices `i` to `i + |bs| - 1`. -/
def Memory.writeBytes : Memory → Nat → List Byte → Memory
  | m, _, [] => m
  | m, i, b :: bs => Memory.writeBytes (Memory.write m i b) (i + 1) bs

/-- The canonical form: indices strictly rising. (An unlisted byte has no value, so no entry can equal it.) -/
abbrev Memory.wf (m : Memory) : Prop := List.Pairwise (fun x y => x.1 < y.1) m

/-- Every byte of `[i, i + n)` has its `written` flag set (20_memory R65). -/
def Memory.allWritten (m : Memory) : Nat → Nat → Bool
  | _, 0 => true
  | i, n + 1 => (Memory.read m i).isSome && Memory.allWritten m (i + 1) n

/-- Read one byte with `d` free values drawn so far: a byte nothing has written is a fresh draw (93 U2, U3; log entry 4). -/
def Memory.draw (m : Memory) (i d : Nat) : Byte × Nat :=
  match Memory.read m i with
  | some b => (b, d)
  | none => (Config.freeByte d, d + 1)

/-- `MemRead(_, i, n)` of 00_scope R9, in index order, with the draws of `Memory.draw`. -/
def Memory.drawBytes (m : Memory) : Nat → Nat → Nat → List Byte × Nat
  | _, 0, d => ([], d)
  | i, n + 1, d =>
    ((Memory.draw m i d).1 :: (Memory.drawBytes m (i + 1) n (Memory.draw m i d).2).1,
      (Memory.drawBytes m (i + 1) n (Memory.draw m i d).2).2)

/-- A 32-bit register's value for the number `n` (00_scope R12: a value below 2^32 is stored unchanged; log entry 8). -/
def regOfNat (n : Nat) : Word := if n < 2 ^ 32 then BitVec.ofNat 32 n else Config.wideValue n

/-- `n` does not exceed the limit; `none` is UNBOUNDED (00_scope R5). -/
def withinLimit (n : Nat) : Option Nat → Bool
  | none => true
  | some m => decide (n ≤ m)

/-- `raise E` (60_exceptions R201): the error report, and nothing else. -/
def State.raise (s : State) (e : ErrorCode) : State := { s with errcode := some e, err := true }

/-- `finish` (60_exceptions R202), applied to the state in which every collected write has taken effect. -/
def State.finish (s : State) : State := { s with errcode := none, err := false }

/-- End a command started in `s`: `ok t`, where `t` is `s` with the collected writes, or an error, which discards them all
(00_scope R10, 60_exceptions R201, R202). -/
def complete (s : State) : Except ErrorCode State → State
  | .ok t => t.finish
  | .error e => s.raise e

end Sys2Proof.Machine
end

