-- ==== Sys2Proof/Machine/Registers.lean ====
section
/-! DEFINITION. The control register map (10_state R22) and what the host sees in each register (10_state R23 to R39). -/

namespace Sys2Proof.Machine

/-- The 20 control registers of 10_state R22. -/
inductive CtrlReg where
  | cmd | status | errcode | typeArg | srcOff | srcLen | index | crcExpect | tcflags | crcResult
  | outLen | segCount | stgLen | stgType | stgCrc | id | ibufSize | obufSize | sigHi | sigLo
  deriving DecidableEq, Repr

/-- The host's access rights (10_state R22). -/
inductive RegAccess where
  /-- "W": a write starts a command, a read gives 0. -/
  | writeOnly
  /-- "R": a host write is a bus error. -/
  | readOnly
  /-- "RW". -/
  | readWrite
  deriving DecidableEq, Repr

/-- The register at an offset from the CTRL base; offsets 0x50 to 0xFC, and unaligned ones, hold none (10_state R22). -/
def regAt (off : Nat) : Option CtrlReg :=
  match off with
  | 0x00 => some .cmd
  | 0x04 => some .status
  | 0x08 => some .errcode
  | 0x0C => some .typeArg
  | 0x10 => some .srcOff
  | 0x14 => some .srcLen
  | 0x18 => some .index
  | 0x1C => some .crcExpect
  | 0x20 => some .tcflags
  | 0x24 => some .crcResult
  | 0x28 => some .outLen
  | 0x2C => some .segCount
  | 0x30 => some .stgLen
  | 0x34 => some .stgType
  | 0x38 => some .stgCrc
  | 0x3C => some .id
  | 0x40 => some .ibufSize
  | 0x44 => some .obufSize
  | 0x48 => some .sigHi
  | 0x4C => some .sigLo
  | _ => none

/-- The offset column of 10_state R22. -/
def regOffset : CtrlReg → Nat
  | .cmd => 0x00 | .status => 0x04 | .errcode => 0x08 | .typeArg => 0x0C | .srcOff => 0x10
  | .srcLen => 0x14 | .index => 0x18 | .crcExpect => 0x1C | .tcflags => 0x20 | .crcResult => 0x24
  | .outLen => 0x28 | .segCount => 0x2C | .stgLen => 0x30 | .stgType => 0x34 | .stgCrc => 0x38
  | .id => 0x3C | .ibufSize => 0x40 | .obufSize => 0x44 | .sigHi => 0x48 | .sigLo => 0x4C

/-- The host access column of 10_state R22. -/
def regAccess : CtrlReg → RegAccess
  | .cmd => .writeOnly
  | .typeArg | .srcOff | .srcLen | .index | .crcExpect => .readWrite
  | .status | .errcode | .tcflags | .crcResult | .outLen | .segCount | .stgLen | .stgType | .stgCrc
  | .id | .ibufSize | .obufSize | .sigHi | .sigLo => .readOnly

/-- The numeric codes of 60_exceptions R200. -/
def errorByte : Option ErrorCode → Byte
  | none => 0x00
  | some .formatError => 0x01
  | some .typeCodeError => 0x02
  | some .lengthMismatch => 0x03
  | some .checksumMismatch => 0x04
  | some .truncatedInput => 0x05
  | some .signatureMismatch => 0x06
  | some .illegalCommand => 0x10
  | some .regionError => 0x11
  | some .noStage => 0x12
  | some .indexOutOfRange => 0x13
  | some .capacityExceeded => 0x14
  | some .outputOverflow => 0x15

/-- STATUS: bit 0 ERR, bit 1 STAGE_VALID (mirrors STAGE.valid), bit 2 REMOVED, the rest 0 (10_state R24). -/
def State.statusWord (s : State) : Word :=
  (BitVec.ofBool s.removed ++ BitVec.ofBool s.stage.valid ++ BitVec.ofBool s.err).setWidth 32

/-- What a host read of a control register gives (10_state R22 to R39). Reserved bits read 0. -/
def State.readReg (s : State) : CtrlReg → Word
  | .cmd => 0
  | .status => s.statusWord
  | .errcode => (errorByte s.errcode).setWidth 32
  | .typeArg => s.typeArg
  | .srcOff => s.srcOff
  | .srcLen => s.srcLen
  | .index => s.index
  | .crcExpect => s.crcExpect
  | .tcflags => s.tcflags.setWidth 32
  | .crcResult => s.crcResult
  | .outLen => s.outLen
  | .segCount => regOfNat s.store.length
  | .stgLen => s.stage.seg.len
  | .stgType => pack4 s.stage.seg.type
  | .stgCrc => s.stage.seg.crc
  | .id => 0x43434231
  | .ibufSize => regOfNat s.params.ibufSize
  | .obufSize => regOfNat s.params.obufSize
  | .sigHi => pack4 s.params.sigHi
  | .sigLo => pack4 s.params.sigLo

/-- A host write of `w` to an RW register stores the whole word (20_memory R54); no other register stores one. -/
def State.writeReg (s : State) (r : CtrlReg) (w : Word) : State :=
  match r with
  | .typeArg => { s with typeArg := w }
  | .srcOff => { s with srcOff := w }
  | .srcLen => { s with srcLen := w }
  | .index => { s with index := w }
  | .crcExpect => { s with crcExpect := w }
  | .cmd | .status | .errcode | .tcflags | .crcResult | .outLen | .segCount | .stgLen | .stgType | .stgCrc
  | .id | .ibufSize | .obufSize | .sigHi | .sigLo => s

end Sys2Proof.Machine
end

