-- ==== Sys2Proof/Machine/Bus.lean ====
section
/-! DEFINITION. The host bus (20_memory.md): the address map, the legal accesses, what each reads or writes, and bus errors. -/

namespace Sys2Proof.Machine

/-- Where a bus address falls (20_memory R51). -/
inductive Target where
  /-- CTRL, at this offset. -/
  | ctrl (off : Nat)
  /-- IBUF byte `i`. -/
  | ibuf (i : Nat)
  /-- OBUF byte `i`. -/
  | obuf (i : Nat)
  | unmapped
  deriving DecidableEq, Repr

/-- The region bases of 20_memory R51. -/
def ibufBase : Nat := 0x10000000
def obufBase : Nat := 0x20000000

/-- The address map of 20_memory R51. (CTRL's 0x100 bytes hold no register from 0x50 on: `regAt`.) -/
def targetOf (p : Params) (addr : Word) : Target :=
  if addr.toNat < 0x100 then .ctrl addr.toNat
  else if ibufBase ≤ addr.toNat ∧ addr.toNat < ibufBase + p.ibufSize then .ibuf (addr.toNat - ibufBase)
  else if obufBase ≤ addr.toNat ∧ addr.toNat < obufBase + p.obufSize then .obuf (addr.toNat - obufBase)
  else .unmapped

/-- An access is over (`done`), or it was a legal write of `w` to CMD, which starts a command (10_state R23). -/
inductive BusResult where
  | done (s : State)
  | command (w : Word) (s : State)
  deriving DecidableEq, Repr

/-- A bus error (20_memory R55): no state of the block changes; the host gets the error response, and BusError is recorded in
the model's fault set (60_exceptions R205; log entry 6). -/
def State.busError (s : State) : State :=
  { s with faults := { s.faults with busError := true }, resp := .error }

/-- A legal read that gives `w`. -/
def State.respondData (s : State) (w : Word) : State := { s with resp := .data w }

/-- A legal write, complete. -/
def State.respondDone (s : State) : State := { s with resp := .done }

/-- An 8-bit read of byte `i` of a buffer, zero-extended (20_memory R53). -/
def State.readByte (s : State) (m : Memory) (i : Nat) : State :=
  { s with draws := (Memory.draw m i s.draws).2 }.respondData ((Memory.draw m i s.draws).1.setWidth 32)

/-- A 32-bit read of the bytes `i` to `i + 3` of a buffer of `size` bytes: `rd_be32` of them (20_memory R53); past the end it
is a bus error (20_memory R55). -/
def State.readWord (s : State) (m : Memory) (size i : Nat) : State :=
  if i + 4 ≤ size then
    { s with draws := (Memory.drawBytes m i 4 s.draws).2 }.respondData
      (rdBe32 (fourAt (Memory.drawBytes m i 4 s.draws).1 0))
  else s.busError

/-- A 4-aligned 32-bit read of CTRL offset `off` (20_memory R54). -/
def State.readCtrl (s : State) (off : Nat) : State :=
  match regAt off with
  | some r => s.respondData (s.readReg r)
  | none => s.busError

/-- A 4-aligned 32-bit write of CTRL offset `off` (20_memory R54, 10_state R22). -/
def State.writeCtrl (s : State) (off : Nat) (w : Word) : BusResult :=
  match regAt off with
  | none => .done s.busError
  | some r =>
    match regAccess r with
    | .writeOnly => .command w s.respondDone
    | .readWrite => .done (s.writeReg r w).respondDone
    | .readOnly => .done s.busError

/-- A 4-aligned 32-bit write of IBUF bytes `i` to `i + 3` (20_memory R52, R55). -/
def State.writeIbufWord (s : State) (i : Nat) (w : Word) : State :=
  if i + 4 ≤ s.params.ibufSize then
    { s with ibuf := Memory.writeBytes s.ibuf i (be32 w).toList }.respondDone
  else s.busError

/-- One host bus access (20_memory R52 to R55). -/
def State.access (s : State) : Access → BusResult
  | .read8 addr =>
    match targetOf s.params addr with
    | .ibuf i => .done (s.readByte s.ibuf i)
    | .obuf i => .done (s.readByte s.obuf i)
    | .ctrl _ => .done s.busError
    | .unmapped => .done s.busError
  | .read32 addr =>
    if addr.toNat % 4 = 0 then
      match targetOf s.params addr with
      | .ctrl off => .done (s.readCtrl off)
      | .ibuf i => .done (s.readWord s.ibuf s.params.ibufSize i)
      | .obuf i => .done (s.readWord s.obuf s.params.obufSize i)
      | .unmapped => .done s.busError
    else .done s.busError
  | .write8 addr b =>
    match targetOf s.params addr with
    | .ibuf i => .done { s with ibuf := Memory.write s.ibuf i b }.respondDone
    | .obuf _ => .done s.busError
    | .ctrl _ => .done s.busError
    | .unmapped => .done s.busError
  | .write32 addr w =>
    if addr.toNat % 4 = 0 then
      match targetOf s.params addr with
      | .ctrl off => s.writeCtrl off w
      | .ibuf i => .done (s.writeIbufWord i w)
      | .obuf _ => .done s.busError
      | .unmapped => .done s.busError
    else .done s.busError
  | .otherWidth _ _ => .done s.busError

end Sys2Proof.Machine
end

