-- ==== Sys2Proof/Machine/Operands.lean ====
section
/-! DEFINITION. The operand forms of 30_encoding R71: the type code in TYPE_ARG and the source region in IBUF, with
`check_region()` (60_exceptions R204) and the check for unwritten bytes (20_memory R65). -/

namespace Sys2Proof.Machine

/-- The type operand `t = unpack4(reg(TYPE_ARG))`. -/
def State.typeOperand (s : State) : Bytes4 := unpack4 s.typeArg

/-- `SRC_OFF + SRC_LEN`, a natural number that does not wrap (00_scope R7). -/
def State.regionEnd (s : State) : Nat := s.srcOff.toNat + s.srcLen.toNat

/-- `check_region()` passes (60_exceptions R204). -/
def State.regionInside (s : State) : Bool := decide (s.regionEnd ≤ s.params.ibufSize)

/-- Every byte of the source region has been written (20_memory R65). -/
def State.regionWritten (s : State) : Bool := Memory.allWritten s.ibuf s.srcOff.toNat s.srcLen.toNat

/-- `MemRead(IBUF, reg(SRC_OFF), reg(SRC_LEN))` with the draws it makes (none where every byte has been written). -/
def State.regionDraw (s : State) : List Byte × Nat := Memory.drawBytes s.ibuf s.srcOff.toNat s.srcLen.toNat s.draws

/-- The state in which UninitRead is recorded (20_memory R65, 60_exceptions R205), the region's draws made, and one more for
the command's outcome. -/
def State.recordUninit (s : State) : State :=
  { s with faults := { s.faults with uninitRead := true }, draws := s.regionDraw.2 + 1 }

/-- A command that read an unwritten byte has no defined result (20_memory R65; log entry 5): its outcome is a free value,
and where that lets it run, it runs on the bytes drawn. -/
def uninitEnd (s : State) (body : State → List Byte → Except ErrorCode State) : State :=
  match Config.uninitOutcome s.regionDraw.2 with
  | some e => s.recordUninit.raise e
  | none => complete s.recordUninit (body s.recordUninit s.regionDraw.1)

/-- A command over the source region, in the order of 60_exceptions R203: RegionError, UninitRead, then the command's own
checks and writes, `body`, on the region's bytes. -/
def withRegion (s : State) (body : State → List Byte → Except ErrorCode State) : State :=
  if s.regionInside then
    if s.regionWritten then complete s (body s s.regionDraw.1) else uninitEnd s body
  else s.raise .regionError

end Sys2Proof.Machine
end

