-- ==== Sys2Proof/Machine/Crc.lean ====
section
/-! DEFINITION. CRC-32/ISO-HDLC as 41_crc R120 computes it, bit-serially, least significant bit first (log entry 10). -/

namespace Sys2Proof.Machine

/-- One of the 8 bit steps of 41_crc R120. -/
def crcBit (c : Word) : Word := if c &&& 1 = 1 then (c >>> 1) ^^^ 0xEDB88320 else c >>> 1

/-- One byte of 41_crc R120: exclusive-or it in, then 8 bit steps. -/
def crcByte (c : Word) (b : Byte) : Word :=
  crcBit (crcBit (crcBit (crcBit (crcBit (crcBit (crcBit (crcBit (c ^^^ b.setWidth 32))))))))

/-- The running value of 41_crc R120 after the bytes `s`, from `c`. -/
def crcRun (c : Word) (s : List Byte) : Word := s.foldl crcByte c

/-- `CRC32(s)` (41_crc R120). -/
def crc32 (s : List Byte) : Word := crcRun 0xFFFFFFFF s ^^^ 0xFFFFFFFF

/-- `segcrc(t, p)`: the checksum over the type code and the payload (41_crc R122). -/
def segCrc (t : Bytes4) (p : List Byte) : Word := crc32 (t.toList ++ p)

end Sys2Proof.Machine
end

