-- ==== Sys2Proof/Machine/Record.lean ====
section
/-! DEFINITION. The segment record: its encoding (42_segment R140, R141) and its parser (42_segment R142, R145), and the
container image and its parser (43_container R170, the loop of R172). -/

namespace Sys2Proof.Machine

/-- The two modes of `parse_record` (42_segment R142): the bytes are one record exactly, or begin with one. -/
inductive ParseMode where
  | exact
  | leading
  deriving DecidableEq, Repr

/-- `enc(s)`: `be32(len) ++ type ++ payload ++ be32(crc)` (42_segment R141). -/
def enc (g : Segment) : List Byte := (be32 g.len).toList ++ g.type.toList ++ g.payload ++ (be32 g.crc).toList

/-- The declared length `L` of a record of at least 12 bytes, a natural number (42_segment R142). -/
def recordLen (r : List Byte) : Nat := (rdBe32 (fourAt r 0)).toNat

/-- The payload `r[8 .. 8+L)`. -/
def recordPayload (r : List Byte) : List Byte := (r.drop 8).take (recordLen r)

/-- The record's fields, read where they stand. -/
def recordSegment (r : List Byte) : Segment where
  len := rdBe32 (fourAt r 0)
  type := fourAt r 4
  payload := recordPayload r
  crc := rdBe32 (fourAt r (8 + recordLen r))

/-- `parse_record(r, mode)` (42_segment R142), its checks (a) to (e) in order; the second part of an answer is the number of
bytes consumed. The reserved bit is not tested (42_segment R145). -/
def parseRecord (r : List Byte) (mode : ParseMode) : Except ErrorCode (Segment × Nat) :=
  if r.length < 12 then .error .truncatedInput
  else if r.length < 12 + recordLen r then .error .truncatedInput
  else if mode = .exact ∧ 12 + recordLen r < r.length then .error .lengthMismatch
  else if segCrc (recordSegment r).type (recordSegment r).payload = (recordSegment r).crc then
    if allLetters (recordSegment r).type then .ok (recordSegment r, 12 + recordLen r) else .error .typeCodeError
  else .error .checksumMismatch

/-- The records of `r` until it is empty, in encounter order (the loop of 43_container R172), in at most `fuel` rounds. Each
round consumes at least 12 bytes, so `|r|` rounds are enough (log entry 17). -/
def parseRecordsFuel : Nat → List Byte → Except ErrorCode (List Segment)
  | _, [] => .ok []
  | 0, _ :: _ => .error .truncatedInput
  | fuel + 1, b :: r =>
    match parseRecord (b :: r) .leading with
    | .error e => .error e
    | .ok (g, k) =>
      match parseRecordsFuel fuel ((b :: r).drop k) with
      | .error e => .error e
      | .ok gs => .ok (g :: gs)

/-- The loop of 43_container R172 over `r[8..N)`. -/
def parseRecords (r : List Byte) : Except ErrorCode (List Segment) := parseRecordsFuel r.length r

/-- The records of a segment sequence, in order (43_container R170). -/
def encAll : List Segment → List Byte
  | [] => []
  | g :: gs => enc g ++ encAll gs

/-- A container's byte image: the signature, then its records (43_container R170). -/
def containerImage (p : Params) (gs : List Segment) : List Byte := p.sig ++ encAll gs

/-- `Σ s.len` over a segment sequence (43_container R172). -/
def lenSum : List Segment → Nat
  | [] => 0
  | g :: gs => g.len.toNat + lenSum gs

/-- `bytes(STORE)`: `Σ |payload|` (10_state R41). -/
def storeBytesOf : List Segment → Nat
  | [] => 0
  | g :: gs => g.payload.length + storeBytesOf gs

end Sys2Proof.Machine
end

