-- ==== Sys2Proof/Machine/SegmentCommands.lean ====
section
/-! DEFINITION. The Segment family (42_segment.md): SEG_NEW, SEG_DECODE, SEG_ENCODE and SEG_READ. -/

namespace Sys2Proof.Machine

/-- A valid STAGE holding `g`. -/
def stageOf (g : Segment) : Stage := ⟨true, g⟩

/-- `MemWrite(OBUF, 0, img)` and `OUT_LEN <- |img|`, where the image fits; else OutputOverflow (42_segment R150,
43_container R174). -/
def writeOutput (s : State) (img : List Byte) : Except ErrorCode State :=
  if img.length ≤ s.params.obufSize then
    .ok { s with obuf := Memory.writeBytes s.obuf 0 img, outLen := regOfNat img.length }
  else .error .outputOverflow

/-- 42_segment R143. -/
def segNewBody (s : State) (p : List Byte) : Except ErrorCode State :=
  if allLetters s.typeOperand then
    .ok { s with stage := stageOf ⟨s.srcLen, s.typeOperand, p, segCrc s.typeOperand p⟩ }
  else .error .typeCodeError

/-- SEG_NEW (42_segment R143). -/
def execSegNew (s : State) : Host.Outcome State Fault Refusal := .next (withRegion s segNewBody)

/-- 42_segment R146. -/
def segDecodeBody (s : State) (r : List Byte) : Except ErrorCode State :=
  match parseRecord r .exact with
  | .error e => .error e
  | .ok (g, _) => .ok { s with stage := stageOf g }

/-- SEG_DECODE (42_segment R146). -/
def execSegDecode (s : State) : Host.Outcome State Fault Refusal := .next (withRegion s segDecodeBody)

/-- 42_segment R150. The size test is on `12 + STAGE.len`, as the rule has it; `|enc(STAGE)|` is that number for every
well-formed segment (42_segment R141). -/
def segEncodeBody (s : State) : Except ErrorCode State :=
  if s.stage.valid then
    if 12 + s.stage.seg.len.toNat ≤ s.params.obufSize then
      .ok { s with obuf := Memory.writeBytes s.obuf 0 (enc s.stage.seg), outLen := regOfNat (12 + s.stage.seg.len.toNat) }
    else .error .outputOverflow
  else .error .noStage

/-- SEG_ENCODE (42_segment R150). It reads no IBUF byte. -/
def execSegEncode (s : State) : Host.Outcome State Fault Refusal := .next (complete s (segEncodeBody s))

/-- 42_segment R152. -/
def segReadBody (s : State) : Except ErrorCode State :=
  match s.store[s.index.toNat]? with
  | none => .error .indexOutOfRange
  | some g => .ok { s with stage := stageOf g }

/-- SEG_READ (42_segment R152). STORE is not changed. -/
def execSegRead (s : State) : Host.Outcome State Fault Refusal := .next (complete s (segReadBody s))

end Sys2Proof.Machine
end

