-- ==== Sys2Proof/Machine/ContainerCommands.lean ====
section
/-! DEFINITION. The Container family (43_container.md): CON_NEW, CON_DECODE, CON_ENCODE, CON_APPEND and CON_REMOVE. -/

namespace Sys2Proof.Machine

/-- CON_NEW (43_container R175). It always succeeds; STAGE is not changed. -/
def execConNew (s : State) : Host.Outcome State Fault Refusal := .next (complete s (.ok { s with store := [] }))

/-- The segment sequence `gs` fits the store (43_container R172: `|list|` and `Σ s.len` against the two limits). -/
def decodedFits (p : Params) (gs : List Segment) : Bool :=
  withinLimit gs.length p.maxSegments && withinLimit (lenSum gs) p.storeBytes

/-- 43_container R172: the signature, the records, and the capacity last. -/
def conDecodeBody (s : State) (r : List Byte) : Except ErrorCode State :=
  if r.length < 8 then .error .truncatedInput
  else if r.take 8 = s.params.sig then
    match parseRecords (r.drop 8) with
    | .error e => .error e
    | .ok gs => if decodedFits s.params gs then .ok { s with store := gs } else .error .capacityExceeded
  else .error .signatureMismatch

/-- CON_DECODE (43_container R172). -/
def execConDecode (s : State) : Host.Outcome State Fault Refusal := .next (withRegion s conDecodeBody)

/-- CON_ENCODE (43_container R174). STORE is not changed. -/
def execConEncode (s : State) : Host.Outcome State Fault Refusal :=
  .next (complete s (writeOutput s (containerImage s.params s.store)))

/-- One more segment fits the store (43_container R176). -/
def appendFits (s : State) : Bool :=
  withinLimit (s.store.length + 1) s.params.maxSegments
    && withinLimit (storeBytesOf s.store + s.stage.seg.len.toNat) s.params.storeBytes

/-- 43_container R176. -/
def conAppendBody (s : State) : Except ErrorCode State :=
  if s.stage.valid then
    if appendFits s then .ok { s with store := s.store ++ [s.stage.seg] } else .error .capacityExceeded
  else .error .noStage

/-- CON_APPEND (43_container R176). STAGE stays valid: the store holds a copy (43_container R181). -/
def execConAppend (s : State) : Host.Outcome State Fault Refusal := .next (complete s (conAppendBody s))

/-- `least i with STORE[i].type == t`, or `none` (43_container R183). -/
def firstOfType (t : Bytes4) : List Segment → Option Nat
  | [] => none
  | g :: gs => if g.type = t then some 0 else (firstOfType t gs).map (· + 1)

/-- 43_container R183. TYPE_ARG is not validated. -/
def conRemoveBody (s : State) : State :=
  match firstOfType s.typeOperand s.store with
  | none => { s with removed := false }
  | some k => { s with store := s.store.take k ++ s.store.drop (k + 1), removed := true }

/-- CON_REMOVE (43_container R183). It always succeeds. -/
def execConRemove (s : State) : Host.Outcome State Fault Refusal := .next (complete s (.ok (conRemoveBody s)))

end Sys2Proof.Machine
end

