-- ==== Sys2Proof/Machine/CrcCommands.lean ====
section
/-! DEFINITION. The CRC family (41_crc.md): CRC_GEN, CRC_CHECK and CRC_RAW. -/

namespace Sys2Proof.Machine

/-- 41_crc R125: the type bytes are not validated. -/
def crcGenBody (s : State) (p : List Byte) : Except ErrorCode State :=
  .ok { s with crcResult := segCrc s.typeOperand p }

/-- CRC_GEN (41_crc R125). -/
def execCrcGen (s : State) : Host.Outcome State Fault Refusal := .next (withRegion s crcGenBody)

/-- 41_crc R126: the comparison is over all 32 bits. -/
def crcCheckBody (s : State) (p : List Byte) : Except ErrorCode State :=
  if segCrc s.typeOperand p = s.crcExpect then .ok { s with crcResult := segCrc s.typeOperand p }
  else .error .checksumMismatch

/-- CRC_CHECK (41_crc R126). -/
def execCrcCheck (s : State) : Host.Outcome State Fault Refusal := .next (withRegion s crcCheckBody)

/-- 41_crc R127. -/
def crcRawBody (s : State) (r : List Byte) : Except ErrorCode State := .ok { s with crcResult := crc32 r }

/-- CRC_RAW (41_crc R127). -/
def execCrcRaw (s : State) : Host.Outcome State Fault Refusal := .next (withRegion s crcRawBody)

end Sys2Proof.Machine
end

