-- ==== Sys2Proof/Machine/Flags.lean ====
section
/-! DEFINITION. The TypeCode property bits (40_typecode R102 to R106) and the flags word (40_typecode R111). -/

namespace Sys2Proof.Machine

/-- Bit 5 of the first byte clear (40_typecode R102). -/
def critical (t : Bytes4) : Bool := !t.b0.getLsbD 5

/-- Bit 5 of the second byte clear (40_typecode R103). -/
def isPublic (t : Bytes4) : Bool := !t.b1.getLsbD 5

/-- Bit 5 of the third byte clear (40_typecode R104). -/
def reservedValid (t : Bytes4) : Bool := !t.b2.getLsbD 5

/-- Bit 5 of the fourth byte set: the inverted polarity (40_typecode R105). -/
def safeToCopy (t : Bytes4) : Bool := t.b3.getLsbD 5

/-- All letters and the reserved-bit test passes (40_typecode R106). -/
def validType (t : Bytes4) : Bool := allLetters t && reservedValid t

/-- The five flag bits of `tcflags(t)`: bit 0 critical, 1 public, 2 reservedValid, 3 safeToCopy, 4 valid (40_typecode R111). -/
def tcflags (t : Bytes4) : BitVec 5 :=
  BitVec.ofBool (validType t) ++ BitVec.ofBool (safeToCopy t) ++ BitVec.ofBool (reservedValid t)
    ++ BitVec.ofBool (isPublic t) ++ BitVec.ofBool (critical t)

end Sys2Proof.Machine
end

