-- ==== Sys2Proof/Machine/TypeCode.lean ====
section
/-! DEFINITION. The TypeCode family (40_typecode.md): TC_CHECK and TC_FROM_STRING. -/

namespace Sys2Proof.Machine

/-- 40_typecode R107. -/
def tcCheckBody (s : State) : Except ErrorCode State :=
  if allLetters s.typeOperand then .ok { s with tcflags := tcflags s.typeOperand } else .error .typeCodeError

/-- TC_CHECK (40_typecode R107). It reads no IBUF byte. -/
def execTcCheck (s : State) : Host.Outcome State Fault Refusal := .next (complete s (tcCheckBody s))

/-- 40_typecode R108, on the region's bytes: exactly 4, each a letter. -/
def tcFromStringBody (s : State) (r : List Byte) : Except ErrorCode State :=
  if r.length = 4 then
    if allLetters (fourAt r 0) then
      .ok { s with typeArg := pack4 (fourAt r 0), tcflags := tcflags (fourAt r 0) }
    else .error .formatError
  else .error .formatError

/-- TC_FROM_STRING (40_typecode R108). -/
def execTcFromString (s : State) : Host.Outcome State Fault Refusal := .next (withRegion s tcFromStringBody)

end Sys2Proof.Machine
end

