-- ==== Sys2Proof/Machine/Dispatch.lean ====
section
/-! DEFINITION. One arm per command: a direct call of its meaning. -/

namespace Sys2Proof.Machine

def exec (i : Instr) (s : State) : Host.Outcome State Fault Refusal :=
  match i with
  | .tcCheck => Sys2Proof.Machine.execTcCheck s
  | .tcFromString => Sys2Proof.Machine.execTcFromString s
  | .crcGen => Sys2Proof.Machine.execCrcGen s
  | .crcCheck => Sys2Proof.Machine.execCrcCheck s
  | .crcRaw => Sys2Proof.Machine.execCrcRaw s
  | .segNew => Sys2Proof.Machine.execSegNew s
  | .segDecode => Sys2Proof.Machine.execSegDecode s
  | .segEncode => Sys2Proof.Machine.execSegEncode s
  | .segRead => Sys2Proof.Machine.execSegRead s
  | .conNew => Sys2Proof.Machine.execConNew s
  | .conDecode => Sys2Proof.Machine.execConDecode s
  | .conEncode => Sys2Proof.Machine.execConEncode s
  | .conAppend => Sys2Proof.Machine.execConAppend s
  | .conRemove => Sys2Proof.Machine.execConRemove s

end Sys2Proof.Machine
end

