-- ==== Sys2Proof/Machine/Engine.lean ====
section
/-! DEFINITION. The command engine: what a word written to CMD does (30_encoding R72, R74), and what one host event does. -/

namespace Sys2Proof.Machine

/-- A CMD write of `w`: decode it and perform the whole command, or raise IllegalCommand (30_encoding R72, R74). -/
def runCommand (w : Word) (s : State) : Host.Outcome State Fault Refusal :=
  match decode w with
  | some i => exec i s
  | none => .next (s.raise .illegalCommand)

/-- One bus access, with the command it may start: the access completes after the command (10_state R21). -/
def runAccess (a : Access) (s : State) : Host.Outcome State Fault Refusal :=
  match s.access a with
  | .done t => .next t
  | .command w t => runCommand w t

/-- The platform's reset (70_reset R220 to R222): every register at its reset value, STAGE and STORE empty, no buffer byte
written, the fault set empty. The parameters stay, and so do the host's events to come and the count of draws, which are
not the block's (log entry 13). -/
def State.applyReset (s : State) : State :=
  { State.resetWith s.params with pending := s.pending, draws := s.draws }

/-- One host event, taken off the list of those still to come. -/
def runEvent (e : HostEvent) (s : State) : Host.Outcome State Fault Refusal :=
  match e with
  | .access a => runAccess a s
  | .reset => .next s.applyReset
  | .secondHost _ => .refused .secondHostAgent

/-- The next host event; with none the block holds its state and does nothing (60_exceptions R214). -/
def runNext (s : State) : Host.Outcome State Fault Refusal :=
  match s.pending with
  | [] => .next s
  | e :: es => runEvent e { s with pending := es }

/-- The host's next event is the write of the command word `w` to CMD. -/
def State.withCommandWord (s : State) (w : Word) : State :=
  { s with pending := .access (.write32 0x00000000 w) :: s.pending }

end Sys2Proof.Machine
end

