-- ==== Sys2Proof/Machine/Step.lean ====
section
/-! DEFINITION. One step: one host event (20_memory R60). The block fetches no instructions (10_state R44): a command comes to
run as a host write of its word to CMD, so that write is what `withFetchWord` places (log entry 2). -/

namespace Sys2Proof.Machine

def step (s : State) : Host.Outcome State Fault Refusal := runNext s

/-- `s` with the host's next event a write of the command word (the low `nbits` bits of `w`) to CMD. -/
def State.withFetchWord (s : State) (nbits w : Nat) : State := s.withCommandWord (BitVec.ofNat 32 (tableWord nbits w))

end Sys2Proof.Machine
end

