-- ==== Sys2Proof/Machine/HostLines.lean ====
section
/-! DEFINITION. The host's assembly lines and pseudo-instructions (30_encoding R76, R77): the bus accesses each stands for. -/

namespace Sys2Proof.Machine

/-- A line of 30_encoding R76. Buffer offsets are natural numbers, and address sums do not wrap (00_scope R7): `busAddress`. -/
inductive HostLine where
  | wr (r : CtrlReg) (imm : Word)
  | rd (r : CtrlReg)
  | ldb (i : Nat) (bs : List Byte)
  | rdb (i n : Nat)
  | cmd (c : Instr)
  deriving DecidableEq, Repr

/-- A pseudo-instruction of 30_encoding R77. -/
inductive HostPseudo where
  | settype (t : Bytes4)
  | region (off len : Word)
  | lds (i : Nat) (text : List Byte)
  | expect (c : Word)
  | index (k : Word)
  deriving DecidableEq, Repr

/-- The bus address of a control register. -/
def regAddr (r : CtrlReg) : Word := BitVec.ofNat 32 (regOffset r)

/-- The bus address for the address sum `n` of a host line. DESIGN CHOICE (log entry 18, safe): a sum of 2^32 or more, which
no 32-bit address is, gives an access at a free address. -/
def busAddress (n : Nat) : Word := if n < 2 ^ 32 then BitVec.ofNat 32 n else Config.wideAddress n

/-- One 8-bit write for each byte, to consecutive IBUF addresses (30_encoding R76). DESIGN CHOICE (log entry 18, safe): where
`0x1000_0000 + i + k` is 2^32 or more the address is free (`busAddress`). -/
def ldbAccesses : Nat → List Byte → List Access
  | _, [] => []
  | i, b :: bs => .write8 (busAddress (ibufBase + i)) b :: ldbAccesses (i + 1) bs

/-- One 8-bit read for each of `n` bytes, from consecutive OBUF addresses (30_encoding R76). DESIGN CHOICE (log entry 18,
safe): where `0x2000_0000 + i + k` is 2^32 or more the address is free (`busAddress`). -/
def rdbAccesses : Nat → Nat → List Access
  | _, 0 => []
  | i, n + 1 => .read8 (busAddress (obufBase + i)) :: rdbAccesses (i + 1) n

/-- The encoding column of 30_encoding R76. -/
def lineAccesses : HostLine → List Access
  | .wr r imm => [.write32 (regAddr r) imm]
  | .rd r => [.read32 (regAddr r)]
  | .ldb i bs => ldbAccesses i bs
  | .rdb i n => rdbAccesses i n
  | .cmd c => [.write32 0x00000000 (encode c)]

/-- The expansion column of 30_encoding R77. -/
def pseudoLines : HostPseudo → List HostLine
  | .settype t => [.wr .typeArg (pack4 t)]
  | .region off len => [.wr .srcOff off, .wr .srcLen len]
  | .lds i text => [.ldb i text]
  | .expect c => [.wr .crcExpect c]
  | .index k => [.wr .index k]

end Sys2Proof.Machine
end

