-- ==== Sys2Proof/Safety.lean ====
section
/-! DEFINITION. What claims call a good state: no model-only fault recorded (60_exceptions R205), every segment record
well-formed (10_state R47), the store within its capacity (10_state R41), the buffers canonical and inside their sizes. -/

namespace Sys2Proof.Machine

/-- No BusError and no UninitRead has been recorded (60_exceptions R205). -/
def State.faultFree (s : State) : Prop := s.faults = ⟨false, false⟩

/-- The source region lies inside IBUF (60_exceptions R204), every byte of it has been written (20_memory R65), and `bs` is
its contents in index order (30_encoding R71). -/
structure State.RegionHolds (s : State) (bs : List Byte) : Prop where
  inside : s.srcOff.toNat + s.srcLen.toNat ≤ s.params.ibufSize
  length : bs.length = s.srcLen.toNat
  bytes : ∀ k (h : k < bs.length), Memory.read s.ibuf (s.srcOff.toNat + k) = some bs[k]

/-- The segment invariant of 10_state R47, its three conditions. -/
structure Segment.wf (g : Segment) : Prop where
  lenIsPayloadLength : g.len.toNat = g.payload.length
  crcIsRecomputed : g.crc = crc32 (g.type.toList ++ g.payload)
  typeIsLetters : allLetters g.type = true

/-- STAGE while valid holds a well-formed segment (10_state R40), and before that its reset value. -/
def Stage.wf (g : Stage) : Prop := if g.valid then g.seg.wf else g = Stage.reset

/-- The capacity rule of 10_state R41. -/
def storeFits (p : Params) (gs : List Segment) : Prop :=
  withinLimit gs.length p.maxSegments = true ∧ withinLimit (storeBytesOf gs) p.storeBytes = true

/-- A buffer of `size` bytes: canonical, and no index at or past its size. -/
def Memory.fits (m : Memory) (size : Nat) : Prop := Memory.wf m ∧ ∀ c ∈ m, c.1 < size

/-- OUT_LEN bytes of OBUF, from index 0, have been written by an encode (10_state R33, R43). -/
def State.outputWritten (s : State) : Prop :=
  s.outLen.toNat ≤ s.params.obufSize ∧ ∀ i < s.outLen.toNat, (Memory.read s.obuf i).isSome = true

/-- The invariant of the block: it holds at reset for legal parameters, and every step keeps it. -/
structure State.Inv (s : State) : Prop where
  params : s.params.wf = true
  stage : s.stage.wf
  store : ∀ g ∈ s.store, g.wf
  capacity : storeFits s.params s.store
  ibuf : Memory.fits s.ibuf s.params.ibufSize
  obuf : Memory.fits s.obuf s.params.obufSize
  output : s.outputWritten
  errAgrees : s.err = s.errcode.isSome

end Sys2Proof.Machine
end

