-- ==== Sys2Proof/Certificates/Slice0/Obligations.lean ====
section
/-! DEFINITION. The statements for the provers, from the numbered rules of spec/. -/

namespace Sys2Proof.Machine

/-! Terms the statements share, each written out from the spec and not through the model's own operations. -/

/-- `s` with the error report `e` and nothing else changed (60_exceptions R201). -/
def failedWith (s : State) (e : ErrorCode) : State := { s with err := true, errcode := some e }

/-- `s` with the report of success and nothing else changed (60_exceptions R202). -/
def succeeded (s : State) : State := { s with err := false, errcode := none }

/-- An ASCII letter, by its number (00_scope R11). -/
abbrev LetterByte (b : Byte) : Prop := (0x41 ≤ b.toNat ∧ b.toNat ≤ 0x5A) ∨ (0x61 ≤ b.toNat ∧ b.toNat ≤ 0x7A)

/-- Every byte is an ASCII letter (00_scope R11). -/
def lettersOnly (bs : List Byte) : Bool := bs.all fun b => decide (LetterByte b)

/-- The opcode map, word and command (30_encoding R72). -/
def commandTable : List (Word × Instr) :=
  [(0x00000001, .tcCheck), (0x00000002, .tcFromString), (0x00000010, .crcGen), (0x00000011, .crcCheck),
   (0x00000012, .crcRaw), (0x00000020, .segNew), (0x00000021, .segDecode), (0x00000022, .segEncode),
   (0x00000023, .segRead), (0x00000030, .conNew), (0x00000031, .conDecode), (0x00000032, .conEncode),
   (0x00000033, .conAppend), (0x00000034, .conRemove)]

/-- The illegal words as 30_encoding R74 lists them. -/
def IllegalWord (w : Word) : Prop :=
  w.toNat / 256 ≠ 0 ∨ w.toNat % 256 = 0x00 ∨ (0x03 ≤ w.toNat % 256 ∧ w.toNat % 256 ≤ 0x0F) ∨
    (0x13 ≤ w.toNat % 256 ∧ w.toNat % 256 ≤ 0x1F) ∨ (0x24 ≤ w.toNat % 256 ∧ w.toNat % 256 ≤ 0x2F) ∨
    (0x35 ≤ w.toNat % 256 ∧ w.toNat % 256 ≤ 0xFF)

/-- The commands that read the source region: those 60_exceptions R200 lists beside RegionError. -/
def regionCommands : List Instr := [.tcFromString, .crcGen, .crcCheck, .crcRaw, .segNew, .segDecode, .conDecode]

/-- Some byte of the source region has not been written (20_memory R65). -/
def State.RegionUnwritten (s : State) : Prop :=
  ∃ k < s.srcLen.toNat, Memory.read s.ibuf (s.srcOff.toNat + k) = none

/-- UninitRead fires for the command `i` in `s` (20_memory R65). -/
def UninitFires (i : Instr) (s : State) : Prop :=
  i ∈ regionCommands ∧ s.srcOff.toNat + s.srcLen.toNat ≤ s.params.ibufSize ∧ s.RegionUnwritten

/-- What the rule of a command over the source region says: RegionError past the end of IBUF (60_exceptions R204); UninitRead
recorded where a byte was never written, in whatever state the command then ends (20_memory R65; UninitReadIsRecorded says
that it does end); else the outcome its own pseudocode gives on the region's bytes. -/
structure RegionCommand (i : Instr) (s : State) (outcome : List Byte → State) : Prop where
  outside : s.params.ibufSize < s.srcOff.toNat + s.srcLen.toNat → exec i s = .next (failedWith s .regionError)
  unwritten : s.srcOff.toNat + s.srcLen.toNat ≤ s.params.ibufSize → s.RegionUnwritten →
    ∀ t, exec i s = .next t → t.faults.uninitRead = true
  holds : ∀ bs, s.RegionHolds bs → exec i s = .next (outcome bs)

/-- The big-endian number in the 4 bytes at `k` (20_memory R57). -/
def numberAt (r : List Byte) (k : Nat) : Nat :=
  (r.getD k 0).toNat * 2 ^ 24 + (r.getD (k + 1) 0).toNat * 2 ^ 16 + (r.getD (k + 2) 0).toNat * 2 ^ 8
    + (r.getD (k + 3) 0).toNat

/-- `parse_record` written out from the text of 42_segment R142, its checks in order. -/
def recordOutcome (r : List Byte) (mode : ParseMode) : Except ErrorCode (Segment × Nat) :=
  if r.length < 12 then .error .truncatedInput
  else if r.length < 12 + numberAt r 0 then .error .truncatedInput
  else if mode = .exact ∧ r.length > 12 + numberAt r 0 then .error .lengthMismatch
  else if (crc32 ((r.drop 4).take 4 ++ (r.drop 8).take (numberAt r 0))).toNat ≠ numberAt r (8 + numberAt r 0) then
    .error .checksumMismatch
  else if lettersOnly ((r.drop 4).take 4) = false then .error .typeCodeError
  else .ok (⟨BitVec.ofNat 32 (numberAt r 0), ⟨r.getD 4 0, r.getD 5 0, r.getD 6 0, r.getD 7 0⟩,
    (r.drop 8).take (numberAt r 0), BitVec.ofNat 32 (numberAt r (8 + numberAt r 0))⟩, 12 + numberAt r 0)

/-- `n` is within a limit that may be UNBOUNDED (00_scope R5). -/
def AtMost (n : Nat) (limit : Option Nat) : Prop := ∀ m, limit = some m → n ≤ m

/-- The container image of a segment sequence (43_container R170). -/
def imageOf (p : Params) (gs : List Segment) : List Byte := p.sig ++ (gs.map enc).flatten

/-- `bs` is `OBUF[0..OUT_LEN)` of `t`. -/
def OutputIs (t : State) (bs : List Byte) : Prop :=
  bs.length = t.outLen.toNat ∧ ∀ k (h : k < bs.length), Memory.read t.obuf k = some bs[k]

/-- The addresses of a buffer of `size` bytes at `base`, for an access of `n` bytes (20_memory R51). -/
def InBuffer (base size n : Nat) (addr : Word) : Prop := base ≤ addr.toNat ∧ addr.toNat + n ≤ base + size

/-- The bus errors as 20_memory R55 lists them, for parameters `p`. Registers stand at 0x00 to 0x4C; the writable ones are
CMD, TYPE_ARG, SRC_OFF, SRC_LEN, INDEX and CRC_EXPECT (10_state R22). -/
def IllegalAccess (p : Params) : Access → Prop
  | .otherWidth _ _ => True
  | .read8 a => ¬ (InBuffer 0x10000000 p.ibufSize 1 a ∨ InBuffer 0x20000000 p.obufSize 1 a)
  | .write8 a _ => ¬ InBuffer 0x10000000 p.ibufSize 1 a
  | .read32 a => a.toNat % 4 ≠ 0 ∨
      ¬ (a.toNat ≤ 0x4C ∨ InBuffer 0x10000000 p.ibufSize 4 a ∨ InBuffer 0x20000000 p.obufSize 4 a)
  | .write32 a _ => a.toNat % 4 ≠ 0 ∨
      ¬ (a.toNat ∈ [0x00, 0x0C, 0x10, 0x14, 0x18, 0x1C] ∨ InBuffer 0x10000000 p.ibufSize 4 a)

/-- The offset and host access columns of the register map, written out (10_state R22). -/
def registerMap : List (Nat × CtrlReg × RegAccess) :=
  [(0x00, .cmd, .writeOnly), (0x04, .status, .readOnly), (0x08, .errcode, .readOnly), (0x0C, .typeArg, .readWrite),
   (0x10, .srcOff, .readWrite), (0x14, .srcLen, .readWrite), (0x18, .index, .readWrite), (0x1C, .crcExpect, .readWrite),
   (0x20, .tcflags, .readOnly), (0x24, .crcResult, .readOnly), (0x28, .outLen, .readOnly), (0x2C, .segCount, .readOnly),
   (0x30, .stgLen, .readOnly), (0x34, .stgType, .readOnly), (0x38, .stgCrc, .readOnly), (0x3C, .id, .readOnly),
   (0x40, .ibufSize, .readOnly), (0x44, .obufSize, .readOnly), (0x48, .sigHi, .readOnly), (0x4C, .sigLo, .readOnly)]

/-- The accesses of the host lines `ls`, and then `es`, are what is to come in `s`. -/
def State.LinesToCome (s : State) (ls : List HostLine) (es : List HostEvent) : Prop :=
  s.pending = (ls.flatMap lineAccesses).map .access ++ es

/-- `n` steps from `s` end in `t`. -/
def Runs (n : Nat) (s t : State) : Prop := Host.Core.run Sys2Proof.core n s = .next t

end Sys2Proof.Machine

open Sys2Proof Sys2Proof.Machine

/-! ## Encoding (30_encoding.md) -/

/-- 30_encoding R72: a CMD write of a word of the table performs that row's command; any other word raises IllegalCommand. -/
def Obligations.CmdWriteRunsItsTableRow : Prop :=
  ∀ (s : State) (es : List HostEvent) (w : Word), s.pending = .access (.write32 0x00000000 w) :: es →
    (∀ i, (w, i) ∈ commandTable → step s = exec i { s with pending := es, resp := .done }) ∧
    ((∀ i, (w, i) ∉ commandTable) →
      step s = .next (failedWith { s with pending := es, resp := .done } .illegalCommand))

/-- A step runs the decoded command: the host's CMD write is taken off the pending events and its bus response is recorded,
and the rest is `exec`. The second part is the same for the word `withFetchWord` places. -/
def Obligations.StepRunsTheDecodedCommand : Prop :=
  (∀ (s : State) (es : List HostEvent) (w : Word) (i : Instr), s.pending = .access (.write32 0x00000000 w) :: es →
    decode w = some i → step s = exec i { s with pending := es, resp := .done }) ∧
  (∀ (s : State) (w : Nat) (i : Instr), decodeTableWord 32 w = some i →
    step (s.withFetchWord 32 w) = exec i { s with resp := .done })

/-- The words of 30_encoding R72, written out, decode to their commands. -/
def Obligations.TableWordsDecode : Prop :=
  decode 0x00000001 = some .tcCheck ∧ decode 0x00000012 = some .crcRaw ∧ decode 0x00000021 = some .segDecode ∧
  decode 0x00000034 = some .conRemove ∧ decode 0x00000130 = none ∧ decode 0x80000001 = none ∧ decode 0x00000000 = none

/-- 30_encoding R74: the illegal words are exactly those listed, and one raises IllegalCommand (code 0x10), changing only
ERRCODE and STATUS.ERR. -/
def Obligations.IllegalWordsAreThoseListed : Prop :=
  (∀ w : Word, decode w = none ↔ IllegalWord w) ∧ errorByte (some .illegalCommand) = 0x10 ∧
  ∀ (s : State) (es : List HostEvent) (w : Word), s.pending = .access (.write32 0x00000000 w) :: es → IllegalWord w →
    step s = .next (failedWith { s with pending := es, resp := .done } .illegalCommand)

/-- Decode and encode agree in both directions: no word has two meanings and no command two words. -/
def Obligations.DecodeAndEncodeAgree : Prop :=
  (∀ (w : Word) (i : Instr), decode w = some i ↔ w = encode i) ∧
  ∀ (n : Nat) (i : Instr), n < 2 ^ 32 → (decodeTableWord 32 n = some i ↔ n = (encode i).toNat)

/-- 30_encoding R73: the high nibble of OP names the family. -/
def Obligations.HighNibbleNamesTheFamily : Prop :=
  (∀ i ∈ [Instr.tcCheck, .tcFromString], (encode i).toNat % 256 / 16 = 0x0) ∧
  (∀ i ∈ [Instr.crcGen, .crcCheck, .crcRaw], (encode i).toNat % 256 / 16 = 0x1) ∧
  (∀ i ∈ [Instr.segNew, .segDecode, .segEncode, .segRead], (encode i).toNat % 256 / 16 = 0x2) ∧
  (∀ i ∈ [Instr.conNew, .conDecode, .conEncode, .conAppend, .conRemove], (encode i).toNat % 256 / 16 = 0x3)

/-- 00_scope R8: the big-endian helpers, by their numbers. -/
def Obligations.BigEndianHelpers : Prop :=
  (∀ v : Word, (be32 v).b0.toNat = v.toNat / 2 ^ 24 ∧ (be32 v).b1.toNat = v.toNat / 2 ^ 16 % 2 ^ 8 ∧
    (be32 v).b2.toNat = v.toNat / 2 ^ 8 % 2 ^ 8 ∧ (be32 v).b3.toNat = v.toNat % 2 ^ 8) ∧
  (∀ t : Bytes4, (rdBe32 t).toNat = t.b0.toNat * 2 ^ 24 + t.b1.toNat * 2 ^ 16 + t.b2.toNat * 2 ^ 8 + t.b3.toNat) ∧
  (∀ t : Bytes4, pack4 t = rdBe32 t) ∧ (∀ v : Word, unpack4 v = be32 v)

/-! ## TypeCode family (40_typecode.md) -/

/-- 40_typecode R102 to R105 and R111: the flags word TCFLAGS holds after it is set to `tcflags(t)`, bit by bit; `valid` is
all letters and the reserved bit clear. -/
def Obligations.TcFlagsWordLayout : Prop :=
  ∀ (s : State) (t : Bytes4), s.tcflags = tcflags t →
    ((s.readReg .tcflags).getLsbD 0 = !t.b0.getLsbD 5) ∧ ((s.readReg .tcflags).getLsbD 1 = !t.b1.getLsbD 5) ∧
    ((s.readReg .tcflags).getLsbD 2 = !t.b2.getLsbD 5) ∧ ((s.readReg .tcflags).getLsbD 3 = t.b3.getLsbD 5) ∧
    ((s.readReg .tcflags).getLsbD 4 = true ↔ lettersOnly t.toList = true ∧ t.b2.getLsbD 5 = false) ∧
    ∀ k, 5 ≤ k → (s.readReg .tcflags).getLsbD k = false

/-- 40_typecode R107: TC_CHECK. -/
def Obligations.TcCheckResult : Prop :=
  encode .tcCheck = 0x00000001 ∧
  ∀ s : State,
    (lettersOnly (unpack4 s.typeArg).toList = true →
      exec .tcCheck s = .next (succeeded { s with tcflags := tcflags (unpack4 s.typeArg) })) ∧
    (lettersOnly (unpack4 s.typeArg).toList = false → exec .tcCheck s = .next (failedWith s .typeCodeError))

/-- 40_typecode R108: TC_FROM_STRING. -/
def Obligations.TcFromStringResult : Prop :=
  encode .tcFromString = 0x00000002 ∧
  ∀ s : State, RegionCommand .tcFromString s fun bs =>
    if bs.length = 4 ∧ lettersOnly bs = true then
      succeeded { s with
        typeArg := BitVec.ofNat 32 (numberAt bs 0)
        tcflags := tcflags ⟨bs.getD 0 0, bs.getD 1 0, bs.getD 2 0, bs.getD 3 0⟩ }
    else failedWith s .formatError

/-- 40_typecode section 2 (the rule on characters and bytes): counting characters of the UTF-8 text and counting its bytes
accept the same strings. -/
def Obligations.CharactersAndBytesAgree : Prop :=
  ∀ cs : List Char,
    (cs.length = 4 ∧ ∀ c ∈ cs, (0x41 ≤ c.toNat ∧ c.toNat ≤ 0x5A) ∨ (0x61 ≤ c.toNat ∧ c.toNat ≤ 0x7A)) ↔
    ((cs.flatMap fun c => (String.utf8EncodeChar c).map UInt8.toBitVec).length = 4 ∧
      ∀ b ∈ (cs.flatMap fun c => (String.utf8EncodeChar c).map UInt8.toBitVec), isLetter b = true)

/-! ## CRC family (41_crc.md) -/

/-- The check values of 41_crc section 1, whose inputs are written out. -/
def Obligations.CrcCheckValues : Prop :=
  crc32 [] = 0x00000000 ∧
  crc32 [0x31, 0x32, 0x33, 0x34, 0x35, 0x36, 0x37, 0x38, 0x39] = 0xCBF43926 ∧
  crc32 [0x00] = 0xD202EF8D ∧ crc32 [0xFF] = 0xFF000000 ∧ crc32 [0x00, 0x00, 0x00, 0x00] = 0x2144DF1C ∧
  crc32 [0x61] = 0xE8B7BE43 ∧ crc32 [0x52, 0x75, 0x53, 0x74] = 0xD484093C ∧
  crc32 [0x52, 0x75, 0x53, 0x74, 0x73, 0x65, 0x63, 0x72, 0x65, 0x74] = 0xCAB1F1C2 ∧
  crc32 [0x74, 0x65, 0x58, 0x74, 0x68, 0x65, 0x6C, 0x6C, 0x6F] = 0xA3F69134 ∧
  crc32 [0x49, 0x45, 0x4E, 0x44] = 0xAE426082

/-- The error-detection property of 41_crc section 1: flipping one bit of the type code or the payload changes the checksum. -/
def Obligations.SegmentChecksumDetectsBitFlip : Prop :=
  ∀ (t t' : Bytes4) (p p' a c : List Byte) (b : Byte) (j : Nat), j < 8 →
    t.toList ++ p = a ++ b :: c → t'.toList ++ p' = a ++ (b ^^^ ((1 : Byte) <<< j)) :: c → segCrc t' p' ≠ segCrc t p

/-- 41_crc R125: CRC_GEN. -/
def Obligations.CrcGenResult : Prop :=
  encode .crcGen = 0x00000010 ∧
  ∀ s : State, RegionCommand .crcGen s fun p => succeeded { s with crcResult := crc32 ((unpack4 s.typeArg).toList ++ p) }

/-- 41_crc R126: CRC_CHECK. -/
def Obligations.CrcCheckResult : Prop :=
  encode .crcCheck = 0x00000011 ∧
  ∀ s : State, RegionCommand .crcCheck s fun p =>
    if crc32 ((unpack4 s.typeArg).toList ++ p) = s.crcExpect then succeeded { s with crcResult := s.crcExpect }
    else failedWith s .checksumMismatch

/-- 41_crc R127: CRC_RAW. -/
def Obligations.CrcRawResult : Prop :=
  encode .crcRaw = 0x00000012 ∧
  ∀ s : State, RegionCommand .crcRaw s fun bs => succeeded { s with crcResult := crc32 bs }

/-- 41_crc section 2 (the identity that CRC_RAW's rule derives): CRC_RAW over a type code and a payload gives what CRC_GEN
gives for the two. -/
def Obligations.CrcRawOfTypeAndPayloadIsCrcGen : Prop :=
  ∀ (s u v w : State) (t : Bytes4) (p : List Byte), s.RegionHolds (t.toList ++ p) → u.RegionHolds p →
    u.typeArg = pack4 t → exec .crcRaw s = .next v → exec .crcGen u = .next w → v.crcResult = w.crcResult

/-! ## Segment family (42_segment.md) -/

/-- 42_segment R141: the encoding of a well-formed segment and its length. -/
def Obligations.RecordEncodingLayout : Prop :=
  ∀ g : Segment, g.wf →
    enc g = [g.len.extractLsb' 24 8, g.len.extractLsb' 16 8, g.len.extractLsb' 8 8, g.len.extractLsb' 0 8]
      ++ [g.type.b0, g.type.b1, g.type.b2, g.type.b3] ++ g.payload
      ++ [g.crc.extractLsb' 24 8, g.crc.extractLsb' 16 8, g.crc.extractLsb' 8 8, g.crc.extractLsb' 0 8] ∧
    (enc g).length = 4 + 4 + g.len.toNat + 4

/-- 42_segment R142: the record parser's checks, in order, in both modes; a returned segment is well-formed. -/
def Obligations.RecordParserChecksInOrder : Prop :=
  ∀ (r : List Byte) (mode : ParseMode), parseRecord r mode = recordOutcome r mode ∧
    ∀ g k, parseRecord r mode = .ok (g, k) → g.wf

/-- 42_segment R143: SEG_NEW. -/
def Obligations.SegNewResult : Prop :=
  encode .segNew = 0x00000020 ∧
  ∀ s : State,
    (lettersOnly (unpack4 s.typeArg).toList = true → RegionCommand .segNew s fun p =>
      succeeded { s with
        stage := ⟨true, ⟨s.srcLen, unpack4 s.typeArg, p, crc32 ((unpack4 s.typeArg).toList ++ p)⟩⟩ }) ∧
    (lettersOnly (unpack4 s.typeArg).toList = false → RegionCommand .segNew s fun _ => failedWith s .typeCodeError)

/-- 42_segment R146: SEG_DECODE. -/
def Obligations.SegDecodeResult : Prop :=
  encode .segDecode = 0x00000021 ∧
  ∀ s : State, RegionCommand .segDecode s fun bs =>
    match recordOutcome bs .exact with
    | .error e => failedWith s e
    | .ok (g, _) => succeeded { s with stage := ⟨true, g⟩ }

/-- 42_segment R150: SEG_ENCODE, with every byte of OBUF: the record's bytes from offset 0, the rest as before. -/
def Obligations.SegEncodeResult : Prop :=
  encode .segEncode = 0x00000022 ∧
  ∀ s : State,
    (s.stage.valid = false → exec .segEncode s = .next (failedWith s .noStage)) ∧
    (s.stage.valid = true → s.params.obufSize < 12 + s.stage.seg.len.toNat →
      exec .segEncode s = .next (failedWith s .outputOverflow)) ∧
    (s.stage.valid = true → 12 + s.stage.seg.len.toNat ≤ s.params.obufSize → s.params.wf = true →
      ∃ m, exec .segEncode s = .next (succeeded { s with
          obuf := m, outLen := BitVec.ofNat 32 (12 + s.stage.seg.len.toNat) }) ∧
        ∀ i, Memory.read m i = ((enc s.stage.seg)[i]?).or (Memory.read s.obuf i))

/-- 42_segment R152: SEG_READ. -/
def Obligations.SegReadResult : Prop :=
  encode .segRead = 0x00000023 ∧
  ∀ s : State,
    (s.store.length ≤ s.index.toNat → exec .segRead s = .next (failedWith s .indexOutOfRange)) ∧
    (∀ h : s.index.toNat < s.store.length,
      exec .segRead s = .next (succeeded { s with stage := ⟨true, s.store[s.index.toNat]⟩ }))

/-- 42_segment section 2 (the segment round-trip law): SEG_ENCODE, its output copied to a source region, and SEG_DECODE
restage the same segment. -/
def Obligations.SegmentRoundTrip : Prop :=
  ∀ s : State, s.params.wf = true → s.stage.valid = true → s.stage.seg.wf →
    12 + s.stage.seg.len.toNat ≤ s.params.obufSize →
    ∃ t, exec .segEncode s = .next t ∧ (∃ bs, OutputIs t bs) ∧
      ∀ (u : State) (bs : List Byte), OutputIs t bs → u.RegionHolds bs →
        exec .segDecode u = .next (succeeded { u with stage := s.stage })

/-- 42_segment section 2 (a corner case of SEG_DECODE): a record with one bit of its type code or payload flipped raises
ChecksumMismatch, whether or not the type code still is letters. -/
def Obligations.FlippedRecordIsChecksumMismatch : Prop :=
  ∀ (s : State) (g : Segment) (k j : Nat), g.wf → 4 ≤ k → k < 8 + g.payload.length → j < 8 →
    s.RegionHolds ((enc g).set k ((enc g).getD k 0 ^^^ ((1 : Byte) <<< j))) →
    exec .segDecode s = .next (failedWith s .checksumMismatch)

/-- 42_segment section 2 (corner cases of SEG_DECODE): a record without its last byte is TruncatedInput; one followed by more
bytes is LengthMismatch. -/
def Obligations.ResizedRecordIsRejected : Prop :=
  ∀ (s : State) (g : Segment), g.wf →
    (s.RegionHolds (enc g).dropLast → exec .segDecode s = .next (failedWith s .truncatedInput)) ∧
    (∀ extra, extra ≠ [] → s.RegionHolds (enc g ++ extra) →
      exec .segDecode s = .next (failedWith s .lengthMismatch))

/-! ## Container family (43_container.md) -/

/-- 43_container R175: CON_NEW. -/
def Obligations.ConNewResult : Prop :=
  encode .conNew = 0x00000030 ∧ ∀ s : State, exec .conNew s = .next (succeeded { s with store := [] })

/-- 43_container R172: CON_DECODE. The bytes after the signature are records to the end, or records and then bytes whose first
record error is reported; the last clause says that these cases are all. -/
def Obligations.ConDecodeResult : Prop :=
  encode .conDecode = 0x00000031 ∧
  ∀ s : State,
    (s.params.ibufSize < s.srcOff.toNat + s.srcLen.toNat → exec .conDecode s = .next (failedWith s .regionError)) ∧
    (s.srcOff.toNat + s.srcLen.toNat ≤ s.params.ibufSize → s.RegionUnwritten →
      ∀ t, exec .conDecode s = .next t → t.faults.uninitRead = true) ∧
    ∀ bs, s.RegionHolds bs →
      (bs.length < 8 → exec .conDecode s = .next (failedWith s .truncatedInput)) ∧
      (8 ≤ bs.length → bs.take 8 ≠ s.params.sig → exec .conDecode s = .next (failedWith s .signatureMismatch)) ∧
      (∀ gs : List Segment, (∀ g ∈ gs, g.wf) → bs = imageOf s.params gs →
        (AtMost gs.length s.params.maxSegments ∧ AtMost (gs.map (·.len.toNat)).sum s.params.storeBytes →
          exec .conDecode s = .next (succeeded { s with store := gs })) ∧
        (¬ (AtMost gs.length s.params.maxSegments ∧ AtMost (gs.map (·.len.toNat)).sum s.params.storeBytes) →
          exec .conDecode s = .next (failedWith s .capacityExceeded))) ∧
      (∀ (gs : List Segment) (rest : List Byte) (e : ErrorCode), (∀ g ∈ gs, g.wf) → bs = imageOf s.params gs ++ rest →
        rest ≠ [] → recordOutcome rest .leading = .error e → exec .conDecode s = .next (failedWith s e)) ∧
      (8 ≤ bs.length → bs.take 8 = s.params.sig → ∃ (gs : List Segment) (rest : List Byte), (∀ g ∈ gs, g.wf) ∧
        bs = imageOf s.params gs ++ rest ∧ (rest = [] ∨ ∃ e, recordOutcome rest .leading = .error e))

/-- 43_container section 2 (the rule on LengthMismatch): CON_DECODE over a written region never reports it. -/
def Obligations.ConDecodeNeverLengthMismatch : Prop :=
  ∀ (s t : State), ¬ UninitFires .conDecode s → exec .conDecode s = .next t → t.errcode ≠ some .lengthMismatch

/-- 43_container R174: CON_ENCODE, with every byte of OBUF. -/
def Obligations.ConEncodeResult : Prop :=
  encode .conEncode = 0x00000032 ∧
  ∀ s : State,
    (s.params.obufSize < (imageOf s.params s.store).length →
      exec .conEncode s = .next (failedWith s .outputOverflow)) ∧
    ((imageOf s.params s.store).length ≤ s.params.obufSize → s.params.wf = true →
      ∃ m, exec .conEncode s = .next (succeeded { s with
          obuf := m, outLen := BitVec.ofNat 32 (imageOf s.params s.store).length }) ∧
        ∀ i, Memory.read m i = ((imageOf s.params s.store)[i]?).or (Memory.read s.obuf i)) ∧
    ((∀ g ∈ s.store, g.wf) →
      (imageOf s.params s.store).length = 8 + (s.store.map fun g => 12 + g.len.toNat).sum)

/-- 43_container R176: CON_APPEND. -/
def Obligations.ConAppendResult : Prop :=
  encode .conAppend = 0x00000033 ∧
  ∀ s : State,
    (s.stage.valid = false → exec .conAppend s = .next (failedWith s .noStage)) ∧
    (s.stage.valid = true → ¬ (AtMost (s.store.length + 1) s.params.maxSegments ∧
        AtMost ((s.store.map (·.payload.length)).sum + s.stage.seg.len.toNat) s.params.storeBytes) →
      exec .conAppend s = .next (failedWith s .capacityExceeded)) ∧
    (s.stage.valid = true → AtMost (s.store.length + 1) s.params.maxSegments ∧
        AtMost ((s.store.map (·.payload.length)).sum + s.stage.seg.len.toNat) s.params.storeBytes →
      exec .conAppend s = .next (succeeded { s with store := s.store ++ [s.stage.seg] }))

/-- 43_container R183: CON_REMOVE removes the first segment of the type, or none. The last clause is the rule's case of a type
argument that is not all letters. -/
def Obligations.ConRemoveResult : Prop :=
  encode .conRemove = 0x00000034 ∧
  ∀ s : State,
    (∀ (k : Nat) (h : k < s.store.length), s.store[k].type = unpack4 s.typeArg →
      (∀ (j : Nat) (hj : j < k), (s.store[j]'(Nat.lt_trans hj h)).type ≠ unpack4 s.typeArg) →
      exec .conRemove s = .next (succeeded { s with
        store := s.store.take k ++ s.store.drop (k + 1), removed := true })) ∧
    ((∀ g ∈ s.store, g.type ≠ unpack4 s.typeArg) →
      exec .conRemove s = .next (succeeded { s with removed := false })) ∧
    ((∀ g ∈ s.store, g.wf) → lettersOnly (unpack4 s.typeArg).toList = false →
      exec .conRemove s = .next (succeeded { s with removed := false }))

/-- 43_container section 3 (the round trip of appended containers): CON_ENCODE and then CON_DECODE of its output give an equal
STORE, for every store that is well-formed and within its capacity. -/
def Obligations.ContainerRoundTrip : Prop :=
  ∀ s : State, s.params.wf = true → (∀ g ∈ s.store, g.wf) → storeFits s.params s.store →
    (imageOf s.params s.store).length ≤ s.params.obufSize →
    ∃ t, exec .conEncode s = .next t ∧ (∃ bs, OutputIs t bs) ∧
      ∀ (u : State) (bs : List Byte), u.params = s.params → OutputIs t bs → u.RegionHolds bs →
        exec .conDecode u = .next (succeeded { u with store := s.store })

/-- 43_container section 3 (the round trip of decoded containers): what CON_DECODE accepted, CON_ENCODE gives back byte for
byte. -/
def Obligations.DecodedImageReencodes : Prop :=
  ∀ (s t u : State) (bs : List Byte), s.params.wf = true → s.RegionHolds bs →
    exec .conDecode s = .next t → t.err = false → exec .conEncode t = .next u → u.err = false → OutputIs u bs

/-- 43_container section 3 (idempotence): encoding, decoding and encoding again gives the same OUT_LEN and the same bytes. -/
def Obligations.EncodeDecodeEncodeIsIdempotent : Prop :=
  ∀ (s u : State) (bs : List Byte), s.params.wf = true → (∀ g ∈ s.store, g.wf) → storeFits s.params s.store →
    u.params = s.params → bs = imageOf s.params s.store → bs.length ≤ s.params.obufSize → u.RegionHolds bs →
    ∃ t v w, exec .conEncode s = .next t ∧ exec .conDecode u = .next v ∧ exec .conEncode v = .next w ∧
      OutputIs t bs ∧ OutputIs w bs ∧ w.outLen = t.outLen

/-! ## Errors (60_exceptions.md) -/

/-- 60_exceptions R204: `check_region()`, for each of the seven commands that make it. -/
def Obligations.RegionCheckComesFirst : Prop :=
  ∀ i ∈ regionCommands, ∀ s : State,
    (s.params.ibufSize < s.srcOff.toNat + s.srcLen.toNat → exec i s = .next (failedWith s .regionError)) ∧
    (∀ bs, s.RegionHolds bs → ∃ t, exec i s = .next t ∧ t.errcode ≠ some .regionError)

/-- 20_memory section 5 (reads of unwritten IBUF bytes): UninitRead is recorded exactly when it fires. That the command then
ends in a next state, and that an error it reports then changes nothing else, is the model's choice (log entry 5). -/
def Obligations.UninitReadIsRecorded : Prop :=
  ∀ (i : Instr) (s : State),
    (UninitFires i s → ∃ t, exec i s = .next t ∧ t.faults = { s.faults with uninitRead := true } ∧
      (t.err = true → ∃ (e : ErrorCode) (d : Nat),
        t = failedWith { s with faults := { s.faults with uninitRead := true }, draws := d } e)) ∧
    (¬ UninitFires i s → ∃ t, exec i s = .next t ∧ t.faults = s.faults ∧ t.draws = s.draws)

/-- 60_exceptions R201: a command that raises writes the error report and nothing else. (A command for which UninitRead fires
has no defined result: UninitReadIsRecorded.) -/
def Obligations.FailingCommandWritesOnlyTheReport : Prop :=
  ∀ (i : Instr) (s t : State), ¬ UninitFires i s → exec i s = .next t → t.err = true → ∃ e, t = failedWith s e

/-- 10_state section 1 and 60_exceptions section 2: every command completes, with one outcome: success, or one error code. For
a command for which UninitRead fires the spec defines no outcome: that it ends, and with one of these, is the model's choice
(log entry 5). -/
def Obligations.EveryCommandCompletes : Prop :=
  ∀ (i : Instr) (s : State), ∃ t, exec i s = .next t ∧
    ((t.err = false ∧ t.errcode = none) ∨ (t.err = true ∧ ∃ e, t.errcode = some e))

/-- The code numbers of 60_exceptions section 1, as ERRCODE shows them; no two kinds share one. -/
def Obligations.ErrorCodeNumbers : Prop :=
  (∀ s : State, s.readReg .errcode = (match s.errcode with
    | none => 0x00000000 | some .formatError => 0x00000001 | some .typeCodeError => 0x00000002
    | some .lengthMismatch => 0x00000003 | some .checksumMismatch => 0x00000004 | some .truncatedInput => 0x00000005
    | some .signatureMismatch => 0x00000006 | some .illegalCommand => 0x00000010 | some .regionError => 0x00000011
    | some .noStage => 0x00000012 | some .indexOutOfRange => 0x00000013 | some .capacityExceeded => 0x00000014
    | some .outputOverflow => 0x00000015)) ∧
  ∀ s t : State, s.readReg .errcode = t.readReg .errcode → s.errcode = t.errcode

/-- 60_exceptions section 2 and 70_reset section 1: no event but the platform's reset clears a fault record. -/
def Obligations.FaultRecordsAreKept : Prop :=
  ∀ (s t : State), step s = .next t → s.pending.head? ≠ some .reset →
    (s.faults.busError = true → t.faults.busError = true) ∧ (s.faults.uninitRead = true → t.faults.uninitRead = true)

/-! ## The bus (20_memory.md) -/

/-- 20_memory R52: host writes to IBUF, with every byte of IBUF. -/
def Obligations.HostWriteToIbuf : Prop :=
  ∀ (s : State) (es : List HostEvent) (i : Nat), s.params.wf = true →
    (∀ b : Byte, i < s.params.ibufSize → s.pending = .access (.write8 (BitVec.ofNat 32 (0x10000000 + i)) b) :: es →
      ∃ m, step s = .next { s with pending := es, resp := .done, ibuf := m } ∧
        ∀ j, Memory.read m j = if j = i then some b else Memory.read s.ibuf j) ∧
    (∀ w : Word, i % 4 = 0 → i + 4 ≤ s.params.ibufSize →
      s.pending = .access (.write32 (BitVec.ofNat 32 (0x10000000 + i)) w) :: es →
      ∃ m, step s = .next { s with pending := es, resp := .done, ibuf := m } ∧
        ∀ j, Memory.read m j =
          if i ≤ j ∧ j < i + 4 then some (w.extractLsb' (8 * (3 - (j - i))) 8) else Memory.read s.ibuf j)

/-- 20_memory R53: host reads of IBUF and OBUF, and host writes to OBUF. `useObuf` says which buffer. A byte nothing has written
gives some value, which this statement does not name, in its own lane of a word. -/
def Obligations.HostReadOfBuffers : Prop :=
  (∀ (useObuf : Bool) (s : State) (es : List HostEvent) (i : Nat), s.params.wf = true →
    let base := if useObuf then 0x20000000 else 0x10000000
    let size := if useObuf then s.params.obufSize else s.params.ibufSize
    let m := if useObuf then s.obuf else s.ibuf
    (i < size → s.pending = .access (.read8 (BitVec.ofNat 32 (base + i))) :: es →
      (∀ b, Memory.read m i = some b →
        step s = .next { s with pending := es, resp := .data (b.setWidth 32) }) ∧
      (Memory.read m i = none → ∃ (b : Byte) (d : Nat),
        step s = .next { s with pending := es, resp := .data (b.setWidth 32), draws := d })) ∧
    (i % 4 = 0 → i + 4 ≤ size → s.pending = .access (.read32 (BitVec.ofNat 32 (base + i))) :: es →
      (∀ b0 b1 b2 b3, Memory.read m i = some b0 → Memory.read m (i + 1) = some b1 → Memory.read m (i + 2) = some b2 →
        Memory.read m (i + 3) = some b3 →
        step s = .next { s with pending := es, resp := .data (rdBe32 ⟨b0, b1, b2, b3⟩) }) ∧
      ∃ (b0 b1 b2 b3 : Byte) (d : Nat),
        step s = .next { s with pending := es, resp := .data (rdBe32 ⟨b0, b1, b2, b3⟩), draws := d } ∧
        (∀ b, Memory.read m i = some b → b0 = b) ∧ (∀ b, Memory.read m (i + 1) = some b → b1 = b) ∧
        (∀ b, Memory.read m (i + 2) = some b → b2 = b) ∧ (∀ b, Memory.read m (i + 3) = some b → b3 = b))) ∧
  (∀ (s : State) (es : List HostEvent) (i : Nat) (a : Access), s.params.wf = true → i < s.params.obufSize →
    ((∃ b, a = .write8 (BitVec.ofNat 32 (0x20000000 + i)) b) ∨ (∃ w, a = .write32 (BitVec.ofNat 32 (0x20000000 + i)) w) ∨
      a = .otherWidth true (BitVec.ofNat 32 (0x20000000 + i))) →
    s.pending = .access a :: es →
    step s = .next { s with pending := es, resp := .error, faults := { s.faults with busError := true } })

/-- 20_memory R54: host accesses to CTRL. -/
def Obligations.HostAccessToCtrl : Prop :=
  ∀ (s : State) (es : List HostEvent),
    (∀ r : CtrlReg, s.pending = .access (.read32 (BitVec.ofNat 32 (regOffset r))) :: es →
      step s = .next { s with pending := es, resp := .data (s.readReg r) }) ∧
    (∀ w : Word, s.pending = .access (.write32 0x0000000C w) :: es →
      step s = .next { s with pending := es, resp := .done, typeArg := w }) ∧
    (∀ w : Word, s.pending = .access (.write32 0x00000010 w) :: es →
      step s = .next { s with pending := es, resp := .done, srcOff := w }) ∧
    (∀ w : Word, s.pending = .access (.write32 0x00000014 w) :: es →
      step s = .next { s with pending := es, resp := .done, srcLen := w }) ∧
    (∀ w : Word, s.pending = .access (.write32 0x00000018 w) :: es →
      step s = .next { s with pending := es, resp := .done, index := w }) ∧
    (∀ w : Word, s.pending = .access (.write32 0x0000001C w) :: es →
      step s = .next { s with pending := es, resp := .done, crcExpect := w }) ∧
    (∀ (w : Word) (i : Instr), s.pending = .access (.write32 0x00000000 w) :: es → decode w = some i →
      step s = exec i { s with pending := es, resp := .done }) ∧
    (∀ (addr : Word) (a : Access), addr.toNat < 0x100 → s.pending = .access a :: es →
      (a = .read8 addr ∨ (∃ b, a = .write8 addr b) ∨ (∃ wr, a = .otherWidth wr addr) ∨
        (addr.toNat % 4 ≠ 0 ∧ (a = .read32 addr ∨ ∃ w, a = .write32 addr w))) →
      step s = .next { s with pending := es, resp := .error, faults := { s.faults with busError := true } })

/-- 20_memory section 2 (bus errors): the accesses listed there are bus errors, which change no state of the block and are
recorded; no other access is one; and no access clears the record. That a legal CMD write whose command reads an unwritten
byte ends in a next state, and leaves the record and the response as they are, is the model's choice (log entry 5). -/
def Obligations.BusErrorsAreThoseListed : Prop :=
  ∀ (s : State) (es : List HostEvent) (a : Access), s.params.wf = true → s.pending = .access a :: es →
    (IllegalAccess s.params a →
      step s = .next { s with pending := es, resp := .error, faults := { s.faults with busError := true } }) ∧
    (¬ IllegalAccess s.params a → ∃ t, step s = .next t ∧ t.resp ≠ .error ∧ t.faults.busError = s.faults.busError) ∧
    (s.faults.busError = true → ∀ t, step s = .next t → t.faults.busError = true)

/-- 20_memory section 3 (register and bus byte order): after a 32-bit write to IBUF, a byte read of its byte `k` gives the lane
that the word shows for it. -/
def Obligations.WordWriteThenByteRead : Prop :=
  ∀ (s : State) (es : List HostEvent) (w : Word) (i k : Nat), s.params.wf = true → i % 4 = 0 → k < 4 →
    i + 4 ≤ s.params.ibufSize →
    s.pending = .access (.write32 (BitVec.ofNat 32 (0x10000000 + i)) w)
      :: .access (.read8 (BitVec.ofNat 32 (0x10000000 + i + k))) :: es →
    ∃ t, Host.Core.run Sys2Proof.core 2 s = .next t ∧ t.pending = es ∧
      t.resp = .data ((w.extractLsb' (8 * (3 - k)) 8).setWidth 32)

/-! ## Registers (10_state.md) -/

/-- 10_state section 2: STATUS bit by bit. -/
def Obligations.StatusWordLayout : Prop :=
  ∀ s : State, (s.readReg .status).getLsbD 0 = s.err ∧ (s.readReg .status).getLsbD 1 = s.stage.valid ∧
    (s.readReg .status).getLsbD 2 = s.removed ∧ ∀ k, 3 ≤ k → (s.readReg .status).getLsbD k = false

/-- 10_state R35, R36 and R37: the STG_ registers are views of STAGE, with their offsets, access and reset values. -/
def Obligations.StageViews : Prop :=
  (∀ s : State, s.readReg .stgLen = s.stage.seg.len ∧ s.readReg .stgType = pack4 s.stage.seg.type ∧
    s.readReg .stgCrc = s.stage.seg.crc) ∧
  (regOffset .stgLen = 0x30 ∧ regOffset .stgType = 0x34 ∧ regOffset .stgCrc = 0x38) ∧
  (∀ r ∈ [CtrlReg.stgLen, .stgType, .stgCrc], regAccess r = .readOnly ∧ ∀ p, (State.resetWith p).readReg r = 0)

/-- The constant registers of 10_state section 2, with the values of the suggested default signature. -/
def Obligations.ConstantRegisters : Prop :=
  (∀ s : State, s.params.wf = true → s.readReg .id = 0x43434231 ∧
    (s.readReg .ibufSize).toNat = s.params.ibufSize ∧ (s.readReg .obufSize).toNat = s.params.obufSize ∧
    s.readReg .sigHi = pack4 s.params.sigHi ∧ s.readReg .sigLo = pack4 s.params.sigLo) ∧
  ∀ s : State, s.params.sig = [0x89, 0x50, 0x4E, 0x47, 0x0D, 0x0A, 0x1A, 0x0A] →
    s.readReg .sigHi = 0x89504E47 ∧ s.readReg .sigLo = 0x0D0A1A0A

/-- The register map of 10_state section 2: each register at the offset written out for it and nowhere else, no register at
any other offset, and the access column. What a read gives: CMD 0, each argument register and each result register its own
field, and SEG_COUNT the number of segments while a register can hold it (log entry 8 is about larger numbers). The other
registers' reads are in ErrorCodeNumbers, StatusWordLayout, StageViews and ConstantRegisters. -/
def Obligations.RegisterMap : Prop :=
  (∀ (off : Nat) (r : CtrlReg), regAt off = some r ↔ ∃ a, (off, r, a) ∈ registerMap) ∧
  (∀ row ∈ registerMap, regOffset row.2.1 = row.1 ∧ regAccess row.2.1 = row.2.2) ∧
  (∀ off, off % 4 ≠ 0 ∨ 0x4C < off → regAt off = none) ∧
  (∀ s : State, s.readReg .cmd = 0 ∧ s.readReg .typeArg = s.typeArg ∧ s.readReg .srcOff = s.srcOff ∧
    s.readReg .srcLen = s.srcLen ∧ s.readReg .index = s.index ∧ s.readReg .crcExpect = s.crcExpect ∧
    s.readReg .crcResult = s.crcResult ∧ s.readReg .outLen = s.outLen ∧
    (∀ k, (s.readReg .tcflags).getLsbD k = s.tcflags.getLsbD k)) ∧
  ∀ s : State, s.store.length < 2 ^ 32 → (s.readReg .segCount).toNat = s.store.length

/-! ## Reset (70_reset_and_hazards.md) -/

/-- 70_reset R221: the register reset values, for every choice of legal parameters. -/
def Obligations.ResetRegisterValues : Prop :=
  ∀ p : Params, p.wf = true →
    (∀ r ∈ [CtrlReg.cmd, .status, .errcode, .typeArg, .srcOff, .srcLen, .index, .crcExpect, .tcflags, .crcResult, .outLen,
      .segCount, .stgLen, .stgType, .stgCrc], (State.resetWith p).readReg r = 0x00000000) ∧
    (State.resetWith p).readReg .id = 0x43434231 ∧
    ((State.resetWith p).readReg .ibufSize).toNat = p.ibufSize ∧
    ((State.resetWith p).readReg .obufSize).toNat = p.obufSize ∧
    (State.resetWith p).readReg .sigHi = pack4 p.sigHi ∧ (State.resetWith p).readReg .sigLo = pack4 p.sigLo

/-- 70_reset section 1: what the platform's reset leaves, from every state. That the host's later events stay to come is the
model's choice (log entry 13). -/
def Obligations.ResetEvent : Prop :=
  ∀ (s : State) (es : List HostEvent), s.pending = .reset :: es →
    ∃ t, step s = .next t ∧ (∀ r : CtrlReg, t.readReg r = (State.resetWith s.params).readReg r) ∧
      t.stage = ⟨false, ⟨0, ⟨0, 0, 0, 0⟩, [], 0⟩⟩ ∧ t.store = [] ∧ (∀ i, Memory.read t.ibuf i = none) ∧
      t.faults = ⟨false, false⟩ ∧ t.pending = es

/-! ## Invariants and whole-machine rules -/

/-- The invariant holds at reset, for every choice of legal parameters and so for `State.reset`. -/
def Obligations.InvariantAtReset : Prop :=
  (∀ p : Params, p.wf = true → (State.resetWith p).Inv) ∧ State.reset.Inv

/-- Every step keeps the invariant: segment records well-formed (10_state section 3), capacities, buffers canonical and inside
their sizes, OUT_LEN bytes of OBUF written, and STATUS.ERR in agreement with ERRCODE. After a command for which UninitRead
fires, whose result the spec leaves undefined, that the invariant holds is the model's choice (log entry 5). -/
def Obligations.StepKeepsInvariant : Prop :=
  ∀ (s t : State), s.Inv → step s = .next t → t.Inv

/-- Every step keeps each buffer's list in its canonical form. -/
def Obligations.StepKeepsBuffersCanonical : Prop :=
  ∀ (s t : State), Memory.wf s.ibuf → Memory.wf s.obuf → step s = .next t → Memory.wf t.ibuf ∧ Memory.wf t.obuf

/-- No step changes the parameters. -/
def Obligations.ParametersNeverChange : Prop :=
  ∀ (s t : State), step s = .next t → t.params = s.params

/-- The column "written by commands" of the register map, and the buffers: what each command may write, from every state. For a
command for which UninitRead fires, whose result the spec leaves undefined, this frame is the model's choice (log entry 5). -/
def Obligations.CommandsWriteOnlyTheirRegisters : Prop :=
  ∀ (i : Instr) (s t : State), exec i s = .next t →
    t.params = s.params ∧ t.srcOff = s.srcOff ∧ t.srcLen = s.srcLen ∧ t.index = s.index ∧ t.crcExpect = s.crcExpect ∧
    t.ibuf = s.ibuf ∧ t.pending = s.pending ∧ t.resp = s.resp ∧ t.faults.busError = s.faults.busError ∧
    (i ≠ .tcFromString → t.typeArg = s.typeArg) ∧
    (i ∉ [Instr.tcCheck, .tcFromString] → t.tcflags = s.tcflags) ∧
    (i ∉ [Instr.crcGen, .crcCheck, .crcRaw] → t.crcResult = s.crcResult) ∧
    (i ∉ [Instr.segEncode, .conEncode] → t.outLen = s.outLen ∧ t.obuf = s.obuf) ∧
    (i ∉ [Instr.segNew, .segDecode, .segRead] → t.stage = s.stage) ∧
    (i ∉ [Instr.conNew, .conDecode, .conAppend, .conRemove] → t.store = s.store) ∧
    (i ≠ .conRemove → t.removed = s.removed)

/-- 10_state sections 2 and 3: STATUS.STAGE_VALID is cleared only by reset, and becomes 1 only in a successful CMD write of
SEG_NEW, SEG_DECODE or SEG_READ; STATUS.REMOVED is written only by CON_REMOVE; OBUF
only by SEG_ENCODE and CON_ENCODE (each beside reset). For a step whose command reads an unwritten byte, that the same stays
unchanged is the model's choice (log entry 5). -/
def Obligations.StateChangesOnlyByItsEvents : Prop :=
  ∀ (s t : State), step s = .next t → s.pending.head? ≠ some .reset →
    (s.stage.valid = true → t.stage.valid = true) ∧
    (s.stage.valid = false → t.stage.valid = true → t.err = false ∧
      ∃ w ∈ ([0x00000020, 0x00000021, 0x00000023] : List Word),
        s.pending.head? = some (.access (.write32 0x00000000 w))) ∧
    (t.removed ≠ s.removed → s.pending.head? = some (.access (.write32 0x00000000 0x00000034))) ∧
    (t.obuf ≠ s.obuf → s.pending.head? = some (.access (.write32 0x00000000 0x00000022)) ∨
      s.pending.head? = some (.access (.write32 0x00000000 0x00000032)))

/-- One step is one host event (the agents of 00_scope section 5, the order of 20_memory section 5): with none the block holds
its state (60_exceptions section 5); an access (10_state section 1) or the platform's reset (70_reset section 1) always has a
next state; an access of a second host agent is refused by name. The list of events is the model's choice (log entry 2), and
so is that the events after a reset stay in it (log entry 13); the refusal follows the spec's "no run defined" (log entry 11);
that a command for which UninitRead fires has a next state is the model's choice (log entry 5). -/
def Obligations.StepIsOneHostEvent : Prop :=
  ∀ s : State,
    (s.pending = [] → step s = .next s) ∧
    (∀ (a : Access) (es : List HostEvent), s.pending = .secondHost a :: es → step s = .refused .secondHostAgent) ∧
    (∀ (e : HostEvent) (es : List HostEvent), s.pending = e :: es → (∀ a, e ≠ .secondHost a) →
      ∃ t, step s = .next t ∧ t.pending = es)

/-- 30_encoding section 4, every host line and pseudo-instruction, by what its bus accesses do (20_memory section 2 for buffers,
registers and bus errors, 10_state section 2 for the registers, 30_encoding section 2 for CMD). `wr`: an argument register
stores the word, a read-only register is a bus error, CMD starts a command. `rd`: the register's value. `ldb`: exactly its
bytes are written. `rdb`: the read of byte `k` gives it, `k` by `k` (a byte nothing has written gives some value). `cmd`: its
command. Then the five pseudo-instructions. Buffer offsets are those that fit the buffer (an access past its end is in
BusErrorsAreThoseListed; log entry 18 is about sums that no address is); that events form a list is log entry 2. -/
def Obligations.HostLinesDoWhatTheyStandFor : Prop :=
  (∀ (s : State) (es : List HostEvent) (w : Word),
    (s.LinesToCome [.wr .typeArg w] es → step s = .next { s with pending := es, resp := .done, typeArg := w }) ∧
    (s.LinesToCome [.wr .srcOff w] es → step s = .next { s with pending := es, resp := .done, srcOff := w }) ∧
    (s.LinesToCome [.wr .srcLen w] es → step s = .next { s with pending := es, resp := .done, srcLen := w }) ∧
    (s.LinesToCome [.wr .index w] es → step s = .next { s with pending := es, resp := .done, index := w }) ∧
    (s.LinesToCome [.wr .crcExpect w] es → step s = .next { s with pending := es, resp := .done, crcExpect := w }) ∧
    (∀ r, regAccess r = .readOnly → s.LinesToCome [.wr r w] es →
      step s = .next { s with pending := es, resp := .error, faults := { s.faults with busError := true } }) ∧
    (s.LinesToCome [.wr .cmd w] es →
      (∀ i, decode w = some i → step s = exec i { s with pending := es, resp := .done }) ∧
      (decode w = none → step s = .next (failedWith { s with pending := es, resp := .done } .illegalCommand)))) ∧
  (∀ (s : State) (es : List HostEvent) (r : CtrlReg), s.LinesToCome [.rd r] es →
    step s = .next { s with pending := es, resp := .data (s.readReg r) }) ∧
  (∀ (s : State) (es : List HostEvent) (l : HostLine) (i : Nat) (bs : List Byte), s.params.wf = true →
    i + bs.length ≤ s.params.ibufSize → bs ≠ [] → (l = .ldb i bs ∨ [l] = pseudoLines (.lds i bs)) → s.LinesToCome [l] es →
    ∃ m, Runs bs.length s { s with pending := es, resp := .done, ibuf := m } ∧
      ∀ j, Memory.read m j = if i ≤ j ∧ j < i + bs.length then bs[j - i]? else Memory.read s.ibuf j) ∧
  (∀ (s : State) (es : List HostEvent) (i n k : Nat), s.params.wf = true → i + n ≤ s.params.obufSize → k < n →
    s.LinesToCome [.rdb i n] es →
    ∃ (b : Byte) (d : Nat),
      Runs (k + 1) s { s with
        pending := (lineAccesses (.rdb (i + (k + 1)) (n - (k + 1)))).map .access ++ es
        resp := .data (b.setWidth 32), draws := d } ∧
      ∀ c, Memory.read s.obuf (i + k) = some c → b = c) ∧
  (∀ (s : State) (es : List HostEvent) (c : Instr), s.LinesToCome [.cmd c] es →
    step s = exec c { s with pending := es, resp := .done }) ∧
  ∀ (s : State) (es : List HostEvent),
    (∀ t, s.LinesToCome (pseudoLines (.settype t)) es →
      step s = .next { s with pending := es, resp := .done, typeArg := pack4 t }) ∧
    (∀ off len, s.LinesToCome (pseudoLines (.region off len)) es →
      Runs 2 s { s with pending := es, resp := .done, srcOff := off, srcLen := len }) ∧
    (∀ c, s.LinesToCome (pseudoLines (.expect c)) es →
      step s = .next { s with pending := es, resp := .done, crcExpect := c }) ∧
    ∀ k, s.LinesToCome (pseudoLines (.index k)) es → step s = .next { s with pending := es, resp := .done, index := k }
end

