-- ==== Sys2Proof/Laws/State.lean ====
section
/-! SUPPORT. One lemma a field for each named update of the state, so that no later proof unfolds a record update. -/

namespace Sys2Proof.Machine

@[simp] theorem State.raise_params (s : State) (e : ErrorCode) : (s.raise e).params = s.params := rfl
@[simp] theorem State.raise_err (s : State) (e : ErrorCode) : (s.raise e).err = true := rfl
@[simp] theorem State.raise_removed (s : State) (e : ErrorCode) : (s.raise e).removed = s.removed := rfl
@[simp] theorem State.raise_errcode (s : State) (e : ErrorCode) : (s.raise e).errcode = some e := rfl
@[simp] theorem State.raise_typeArg (s : State) (e : ErrorCode) : (s.raise e).typeArg = s.typeArg := rfl
@[simp] theorem State.raise_srcOff (s : State) (e : ErrorCode) : (s.raise e).srcOff = s.srcOff := rfl
@[simp] theorem State.raise_srcLen (s : State) (e : ErrorCode) : (s.raise e).srcLen = s.srcLen := rfl
@[simp] theorem State.raise_index (s : State) (e : ErrorCode) : (s.raise e).index = s.index := rfl
@[simp] theorem State.raise_crcExpect (s : State) (e : ErrorCode) : (s.raise e).crcExpect = s.crcExpect := rfl
@[simp] theorem State.raise_tcflags (s : State) (e : ErrorCode) : (s.raise e).tcflags = s.tcflags := rfl
@[simp] theorem State.raise_crcResult (s : State) (e : ErrorCode) : (s.raise e).crcResult = s.crcResult := rfl
@[simp] theorem State.raise_outLen (s : State) (e : ErrorCode) : (s.raise e).outLen = s.outLen := rfl
@[simp] theorem State.raise_stage (s : State) (e : ErrorCode) : (s.raise e).stage = s.stage := rfl
@[simp] theorem State.raise_store (s : State) (e : ErrorCode) : (s.raise e).store = s.store := rfl
@[simp] theorem State.raise_ibuf (s : State) (e : ErrorCode) : (s.raise e).ibuf = s.ibuf := rfl
@[simp] theorem State.raise_obuf (s : State) (e : ErrorCode) : (s.raise e).obuf = s.obuf := rfl
@[simp] theorem State.raise_faults (s : State) (e : ErrorCode) : (s.raise e).faults = s.faults := rfl
@[simp] theorem State.raise_pending (s : State) (e : ErrorCode) : (s.raise e).pending = s.pending := rfl
@[simp] theorem State.raise_resp (s : State) (e : ErrorCode) : (s.raise e).resp = s.resp := rfl
@[simp] theorem State.raise_draws (s : State) (e : ErrorCode) : (s.raise e).draws = s.draws := rfl

@[simp] theorem State.finish_params (s : State) : s.finish.params = s.params := rfl
@[simp] theorem State.finish_err (s : State) : s.finish.err = false := rfl
@[simp] theorem State.finish_removed (s : State) : s.finish.removed = s.removed := rfl
@[simp] theorem State.finish_errcode (s : State) : s.finish.errcode = none := rfl
@[simp] theorem State.finish_typeArg (s : State) : s.finish.typeArg = s.typeArg := rfl
@[simp] theorem State.finish_srcOff (s : State) : s.finish.srcOff = s.srcOff := rfl
@[simp] theorem State.finish_srcLen (s : State) : s.finish.srcLen = s.srcLen := rfl
@[simp] theorem State.finish_index (s : State) : s.finish.index = s.index := rfl
@[simp] theorem State.finish_crcExpect (s : State) : s.finish.crcExpect = s.crcExpect := rfl
@[simp] theorem State.finish_tcflags (s : State) : s.finish.tcflags = s.tcflags := rfl
@[simp] theorem State.finish_crcResult (s : State) : s.finish.crcResult = s.crcResult := rfl
@[simp] theorem State.finish_outLen (s : State) : s.finish.outLen = s.outLen := rfl
@[simp] theorem State.finish_stage (s : State) : s.finish.stage = s.stage := rfl
@[simp] theorem State.finish_store (s : State) : s.finish.store = s.store := rfl
@[simp] theorem State.finish_ibuf (s : State) : s.finish.ibuf = s.ibuf := rfl
@[simp] theorem State.finish_obuf (s : State) : s.finish.obuf = s.obuf := rfl
@[simp] theorem State.finish_faults (s : State) : s.finish.faults = s.faults := rfl
@[simp] theorem State.finish_pending (s : State) : s.finish.pending = s.pending := rfl
@[simp] theorem State.finish_resp (s : State) : s.finish.resp = s.resp := rfl
@[simp] theorem State.finish_draws (s : State) : s.finish.draws = s.draws := rfl

@[simp] theorem State.recordUninit_params (s : State) : s.recordUninit.params = s.params := rfl
@[simp] theorem State.recordUninit_err (s : State) : s.recordUninit.err = s.err := rfl
@[simp] theorem State.recordUninit_removed (s : State) : s.recordUninit.removed = s.removed := rfl
@[simp] theorem State.recordUninit_errcode (s : State) : s.recordUninit.errcode = s.errcode := rfl
@[simp] theorem State.recordUninit_typeArg (s : State) : s.recordUninit.typeArg = s.typeArg := rfl
@[simp] theorem State.recordUninit_srcOff (s : State) : s.recordUninit.srcOff = s.srcOff := rfl
@[simp] theorem State.recordUninit_srcLen (s : State) : s.recordUninit.srcLen = s.srcLen := rfl
@[simp] theorem State.recordUninit_index (s : State) : s.recordUninit.index = s.index := rfl
@[simp] theorem State.recordUninit_crcExpect (s : State) : s.recordUninit.crcExpect = s.crcExpect := rfl
@[simp] theorem State.recordUninit_tcflags (s : State) : s.recordUninit.tcflags = s.tcflags := rfl
@[simp] theorem State.recordUninit_crcResult (s : State) : s.recordUninit.crcResult = s.crcResult := rfl
@[simp] theorem State.recordUninit_outLen (s : State) : s.recordUninit.outLen = s.outLen := rfl
@[simp] theorem State.recordUninit_stage (s : State) : s.recordUninit.stage = s.stage := rfl
@[simp] theorem State.recordUninit_store (s : State) : s.recordUninit.store = s.store := rfl
@[simp] theorem State.recordUninit_ibuf (s : State) : s.recordUninit.ibuf = s.ibuf := rfl
@[simp] theorem State.recordUninit_obuf (s : State) : s.recordUninit.obuf = s.obuf := rfl
@[simp] theorem State.recordUninit_faults (s : State) : s.recordUninit.faults = { s.faults with uninitRead := true } := rfl
@[simp] theorem State.recordUninit_pending (s : State) : s.recordUninit.pending = s.pending := rfl
@[simp] theorem State.recordUninit_resp (s : State) : s.recordUninit.resp = s.resp := rfl
@[simp] theorem State.recordUninit_draws (s : State) : s.recordUninit.draws = s.regionDraw.2 + 1 := rfl

@[simp] theorem State.busError_params (s : State) : s.busError.params = s.params := rfl
@[simp] theorem State.busError_err (s : State) : s.busError.err = s.err := rfl
@[simp] theorem State.busError_removed (s : State) : s.busError.removed = s.removed := rfl
@[simp] theorem State.busError_errcode (s : State) : s.busError.errcode = s.errcode := rfl
@[simp] theorem State.busError_typeArg (s : State) : s.busError.typeArg = s.typeArg := rfl
@[simp] theorem State.busError_srcOff (s : State) : s.busError.srcOff = s.srcOff := rfl
@[simp] theorem State.busError_srcLen (s : State) : s.busError.srcLen = s.srcLen := rfl
@[simp] theorem State.busError_index (s : State) : s.busError.index = s.index := rfl
@[simp] theorem State.busError_crcExpect (s : State) : s.busError.crcExpect = s.crcExpect := rfl
@[simp] theorem State.busError_tcflags (s : State) : s.busError.tcflags = s.tcflags := rfl
@[simp] theorem State.busError_crcResult (s : State) : s.busError.crcResult = s.crcResult := rfl
@[simp] theorem State.busError_outLen (s : State) : s.busError.outLen = s.outLen := rfl
@[simp] theorem State.busError_stage (s : State) : s.busError.stage = s.stage := rfl
@[simp] theorem State.busError_store (s : State) : s.busError.store = s.store := rfl
@[simp] theorem State.busError_ibuf (s : State) : s.busError.ibuf = s.ibuf := rfl
@[simp] theorem State.busError_obuf (s : State) : s.busError.obuf = s.obuf := rfl
@[simp] theorem State.busError_faults (s : State) : s.busError.faults = { s.faults with busError := true } := rfl
@[simp] theorem State.busError_pending (s : State) : s.busError.pending = s.pending := rfl
@[simp] theorem State.busError_resp (s : State) : s.busError.resp = .error := rfl
@[simp] theorem State.busError_draws (s : State) : s.busError.draws = s.draws := rfl

@[simp] theorem State.respondData_params (s : State) (w : Word) : (s.respondData w).params = s.params := rfl
@[simp] theorem State.respondData_err (s : State) (w : Word) : (s.respondData w).err = s.err := rfl
@[simp] theorem State.respondData_removed (s : State) (w : Word) : (s.respondData w).removed = s.removed := rfl
@[simp] theorem State.respondData_errcode (s : State) (w : Word) : (s.respondData w).errcode = s.errcode := rfl
@[simp] theorem State.respondData_typeArg (s : State) (w : Word) : (s.respondData w).typeArg = s.typeArg := rfl
@[simp] theorem State.respondData_srcOff (s : State) (w : Word) : (s.respondData w).srcOff = s.srcOff := rfl
@[simp] theorem State.respondData_srcLen (s : State) (w : Word) : (s.respondData w).srcLen = s.srcLen := rfl
@[simp] theorem State.respondData_index (s : State) (w : Word) : (s.respondData w).index = s.index := rfl
@[simp] theorem State.respondData_crcExpect (s : State) (w : Word) : (s.respondData w).crcExpect = s.crcExpect := rfl
@[simp] theorem State.respondData_tcflags (s : State) (w : Word) : (s.respondData w).tcflags = s.tcflags := rfl
@[simp] theorem State.respondData_crcResult (s : State) (w : Word) : (s.respondData w).crcResult = s.crcResult := rfl
@[simp] theorem State.respondData_outLen (s : State) (w : Word) : (s.respondData w).outLen = s.outLen := rfl
@[simp] theorem State.respondData_stage (s : State) (w : Word) : (s.respondData w).stage = s.stage := rfl
@[simp] theorem State.respondData_store (s : State) (w : Word) : (s.respondData w).store = s.store := rfl
@[simp] theorem State.respondData_ibuf (s : State) (w : Word) : (s.respondData w).ibuf = s.ibuf := rfl
@[simp] theorem State.respondData_obuf (s : State) (w : Word) : (s.respondData w).obuf = s.obuf := rfl
@[simp] theorem State.respondData_faults (s : State) (w : Word) : (s.respondData w).faults = s.faults := rfl
@[simp] theorem State.respondData_pending (s : State) (w : Word) : (s.respondData w).pending = s.pending := rfl
@[simp] theorem State.respondData_resp (s : State) (w : Word) : (s.respondData w).resp = .data w := rfl
@[simp] theorem State.respondData_draws (s : State) (w : Word) : (s.respondData w).draws = s.draws := rfl

@[simp] theorem State.respondDone_params (s : State) : s.respondDone.params = s.params := rfl
@[simp] theorem State.respondDone_err (s : State) : s.respondDone.err = s.err := rfl
@[simp] theorem State.respondDone_removed (s : State) : s.respondDone.removed = s.removed := rfl
@[simp] theorem State.respondDone_errcode (s : State) : s.respondDone.errcode = s.errcode := rfl
@[simp] theorem State.respondDone_typeArg (s : State) : s.respondDone.typeArg = s.typeArg := rfl
@[simp] theorem State.respondDone_srcOff (s : State) : s.respondDone.srcOff = s.srcOff := rfl
@[simp] theorem State.respondDone_srcLen (s : State) : s.respondDone.srcLen = s.srcLen := rfl
@[simp] theorem State.respondDone_index (s : State) : s.respondDone.index = s.index := rfl
@[simp] theorem State.respondDone_crcExpect (s : State) : s.respondDone.crcExpect = s.crcExpect := rfl
@[simp] theorem State.respondDone_tcflags (s : State) : s.respondDone.tcflags = s.tcflags := rfl
@[simp] theorem State.respondDone_crcResult (s : State) : s.respondDone.crcResult = s.crcResult := rfl
@[simp] theorem State.respondDone_outLen (s : State) : s.respondDone.outLen = s.outLen := rfl
@[simp] theorem State.respondDone_stage (s : State) : s.respondDone.stage = s.stage := rfl
@[simp] theorem State.respondDone_store (s : State) : s.respondDone.store = s.store := rfl
@[simp] theorem State.respondDone_ibuf (s : State) : s.respondDone.ibuf = s.ibuf := rfl
@[simp] theorem State.respondDone_obuf (s : State) : s.respondDone.obuf = s.obuf := rfl
@[simp] theorem State.respondDone_faults (s : State) : s.respondDone.faults = s.faults := rfl
@[simp] theorem State.respondDone_pending (s : State) : s.respondDone.pending = s.pending := rfl
@[simp] theorem State.respondDone_resp (s : State) : s.respondDone.resp = .done := rfl
@[simp] theorem State.respondDone_draws (s : State) : s.respondDone.draws = s.draws := rfl

@[simp] theorem State.withCommandWord_params (s : State) (w : Word) : (s.withCommandWord w).params = s.params := rfl
@[simp] theorem State.withCommandWord_err (s : State) (w : Word) : (s.withCommandWord w).err = s.err := rfl
@[simp] theorem State.withCommandWord_removed (s : State) (w : Word) : (s.withCommandWord w).removed = s.removed := rfl
@[simp] theorem State.withCommandWord_errcode (s : State) (w : Word) : (s.withCommandWord w).errcode = s.errcode := rfl
@[simp] theorem State.withCommandWord_typeArg (s : State) (w : Word) : (s.withCommandWord w).typeArg = s.typeArg := rfl
@[simp] theorem State.withCommandWord_srcOff (s : State) (w : Word) : (s.withCommandWord w).srcOff = s.srcOff := rfl
@[simp] theorem State.withCommandWord_srcLen (s : State) (w : Word) : (s.withCommandWord w).srcLen = s.srcLen := rfl
@[simp] theorem State.withCommandWord_index (s : State) (w : Word) : (s.withCommandWord w).index = s.index := rfl
@[simp] theorem State.withCommandWord_crcExpect (s : State) (w : Word) : (s.withCommandWord w).crcExpect = s.crcExpect := rfl
@[simp] theorem State.withCommandWord_tcflags (s : State) (w : Word) : (s.withCommandWord w).tcflags = s.tcflags := rfl
@[simp] theorem State.withCommandWord_crcResult (s : State) (w : Word) : (s.withCommandWord w).crcResult = s.crcResult := rfl
@[simp] theorem State.withCommandWord_outLen (s : State) (w : Word) : (s.withCommandWord w).outLen = s.outLen := rfl
@[simp] theorem State.withCommandWord_stage (s : State) (w : Word) : (s.withCommandWord w).stage = s.stage := rfl
@[simp] theorem State.withCommandWord_store (s : State) (w : Word) : (s.withCommandWord w).store = s.store := rfl
@[simp] theorem State.withCommandWord_ibuf (s : State) (w : Word) : (s.withCommandWord w).ibuf = s.ibuf := rfl
@[simp] theorem State.withCommandWord_obuf (s : State) (w : Word) : (s.withCommandWord w).obuf = s.obuf := rfl
@[simp] theorem State.withCommandWord_faults (s : State) (w : Word) : (s.withCommandWord w).faults = s.faults := rfl
@[simp] theorem State.withCommandWord_pending (s : State) (w : Word) : (s.withCommandWord w).pending = .access (.write32 0x00000000 w) :: s.pending := rfl
@[simp] theorem State.withCommandWord_resp (s : State) (w : Word) : (s.withCommandWord w).resp = s.resp := rfl
@[simp] theorem State.withCommandWord_draws (s : State) (w : Word) : (s.withCommandWord w).draws = s.draws := rfl

@[simp] theorem State.applyReset_params (s : State) : s.applyReset.params = s.params := rfl
@[simp] theorem State.applyReset_err (s : State) : s.applyReset.err = false := rfl
@[simp] theorem State.applyReset_removed (s : State) : s.applyReset.removed = false := rfl
@[simp] theorem State.applyReset_errcode (s : State) : s.applyReset.errcode = none := rfl
@[simp] theorem State.applyReset_typeArg (s : State) : s.applyReset.typeArg = 0 := rfl
@[simp] theorem State.applyReset_srcOff (s : State) : s.applyReset.srcOff = 0 := rfl
@[simp] theorem State.applyReset_srcLen (s : State) : s.applyReset.srcLen = 0 := rfl
@[simp] theorem State.applyReset_index (s : State) : s.applyReset.index = 0 := rfl
@[simp] theorem State.applyReset_crcExpect (s : State) : s.applyReset.crcExpect = 0 := rfl
@[simp] theorem State.applyReset_tcflags (s : State) : s.applyReset.tcflags = 0 := rfl
@[simp] theorem State.applyReset_crcResult (s : State) : s.applyReset.crcResult = 0 := rfl
@[simp] theorem State.applyReset_outLen (s : State) : s.applyReset.outLen = 0 := rfl
@[simp] theorem State.applyReset_stage (s : State) : s.applyReset.stage = Stage.reset := rfl
@[simp] theorem State.applyReset_store (s : State) : s.applyReset.store = [] := rfl
@[simp] theorem State.applyReset_ibuf (s : State) : s.applyReset.ibuf = [] := rfl
@[simp] theorem State.applyReset_obuf (s : State) : s.applyReset.obuf = [] := rfl
@[simp] theorem State.applyReset_faults (s : State) : s.applyReset.faults = ⟨false, false⟩ := rfl
@[simp] theorem State.applyReset_pending (s : State) : s.applyReset.pending = s.pending := rfl
@[simp] theorem State.applyReset_resp (s : State) : s.applyReset.resp = .none := rfl
@[simp] theorem State.applyReset_draws (s : State) : s.applyReset.draws = s.draws := rfl

@[simp] theorem State.resetWith_params (p : Params) : (State.resetWith p).params = p := rfl
@[simp] theorem State.resetWith_err (p : Params) : (State.resetWith p).err = false := rfl
@[simp] theorem State.resetWith_removed (p : Params) : (State.resetWith p).removed = false := rfl
@[simp] theorem State.resetWith_errcode (p : Params) : (State.resetWith p).errcode = none := rfl
@[simp] theorem State.resetWith_typeArg (p : Params) : (State.resetWith p).typeArg = 0 := rfl
@[simp] theorem State.resetWith_srcOff (p : Params) : (State.resetWith p).srcOff = 0 := rfl
@[simp] theorem State.resetWith_srcLen (p : Params) : (State.resetWith p).srcLen = 0 := rfl
@[simp] theorem State.resetWith_index (p : Params) : (State.resetWith p).index = 0 := rfl
@[simp] theorem State.resetWith_crcExpect (p : Params) : (State.resetWith p).crcExpect = 0 := rfl
@[simp] theorem State.resetWith_tcflags (p : Params) : (State.resetWith p).tcflags = 0 := rfl
@[simp] theorem State.resetWith_crcResult (p : Params) : (State.resetWith p).crcResult = 0 := rfl
@[simp] theorem State.resetWith_outLen (p : Params) : (State.resetWith p).outLen = 0 := rfl
@[simp] theorem State.resetWith_stage (p : Params) : (State.resetWith p).stage = Stage.reset := rfl
@[simp] theorem State.resetWith_store (p : Params) : (State.resetWith p).store = [] := rfl
@[simp] theorem State.resetWith_ibuf (p : Params) : (State.resetWith p).ibuf = [] := rfl
@[simp] theorem State.resetWith_obuf (p : Params) : (State.resetWith p).obuf = [] := rfl
@[simp] theorem State.resetWith_faults (p : Params) : (State.resetWith p).faults = ⟨false, false⟩ := rfl
@[simp] theorem State.resetWith_pending (p : Params) : (State.resetWith p).pending = [] := rfl
@[simp] theorem State.resetWith_resp (p : Params) : (State.resetWith p).resp = .none := rfl
@[simp] theorem State.resetWith_draws (p : Params) : (State.resetWith p).draws = 0 := rfl

end Sys2Proof.Machine
end

