-- ==== Sys2Proof/Laws/Ops.lean ====
section
/-! SUPPORT. Everything the end of a command and the source region can do, said once; callers cite these. -/

namespace Sys2Proof.Machine

@[simp] theorem complete_ok (s t : State) : complete s (.ok t) = t.finish := rfl
@[simp] theorem complete_error (s : State) (e : ErrorCode) : complete s (.error e) = s.raise e := rfl

/-- A command ends in `finish` of its collected writes, or in `raise`. -/
theorem complete_cases {s u : State} {r : Except ErrorCode State} (h : complete s r = u) :
    (∃ t, r = .ok t ∧ u = t.finish) ∨ (∃ e, r = .error e ∧ u = s.raise e) := by
  cases r with
  | ok t => exact .inl ⟨t, rfl, h.symm⟩
  | error e => exact .inr ⟨e, rfl, h.symm⟩

theorem complete_err (s : State) (r : Except ErrorCode State) :
    (complete s r).err = (complete s r).errcode.isSome := by cases r <;> rfl

theorem regionWritten_of_holds {s : State} {bs : List Byte} (h : s.RegionHolds bs) : s.regionWritten = true := by
  rw [State.regionWritten, Memory.allWritten_iff]
  intro k hk
  rw [h.bytes k (by rw [h.length]; exact hk)]
  rfl

theorem regionDraw_of_holds {s : State} {bs : List Byte} (h : s.RegionHolds bs) : s.regionDraw = (bs, s.draws) := by
  rw [State.regionDraw, ← h.length]
  exact Memory.drawBytes_written _ _ _ _ h.bytes

/-- A region command on a region that is inside IBUF and fully written runs on exactly its bytes. -/
theorem withRegion_of_holds {s : State} {bs : List Byte} (h : s.RegionHolds bs)
    (body : State → List Byte → Except ErrorCode State) : withRegion s body = complete s (body s bs) := by
  have hi : s.regionInside = true := decide_eq_true h.inside
  simp only [withRegion, hi, regionWritten_of_holds h, if_true, regionDraw_of_holds h]

theorem withRegion_outside {s : State} (h : s.params.ibufSize < s.srcOff.toNat + s.srcLen.toNat)
    (body : State → List Byte → Except ErrorCode State) : withRegion s body = s.raise .regionError := by
  have hi : s.regionInside = false := decide_eq_false (by simp only [State.regionEnd]; omega)
  simp [withRegion, hi]

theorem withRegion_unwritten {s : State} (hi : s.srcOff.toNat + s.srcLen.toNat ≤ s.params.ibufSize)
    (hw : s.regionWritten = false) (body : State → List Byte → Except ErrorCode State) :
    withRegion s body = uninitEnd s body := by
  have hi : s.regionInside = true := decide_eq_true hi
  simp [withRegion, hi, hw]

/-- The region's bytes are as many as SRC_LEN says. -/
@[simp] theorem regionDraw_length (s : State) : s.regionDraw.1.length = s.srcLen.toNat := by simp [State.regionDraw]

/-- A fully written region inside IBUF holds the bytes that a command reads. -/
theorem regionHolds_draw {s : State} (hi : s.regionInside = true) (hw : s.regionWritten = true) :
    s.RegionHolds s.regionDraw.1 := by
  rw [State.regionWritten, Memory.allWritten_iff] at hw
  have key : ∀ k (hk : k < s.srcLen.toNat), ∃ b, Memory.read s.ibuf (s.srcOff.toNat + k) = some b :=
    fun k hk => Option.isSome_iff_exists.mp (hw k hk)
  have e := Memory.drawBytes_written s.ibuf s.srcOff.toNat s.draws
    ((List.range s.srcLen.toNat).map fun k => (Memory.read s.ibuf (s.srcOff.toNat + k)).getD 0)
    (fun k hk => by
      simp only [List.length_map, List.length_range] at hk
      obtain ⟨b, hb⟩ := key k hk
      simp [hb])
  simp only [List.length_map, List.length_range] at e
  refine ⟨of_decide_eq_true hi, regionDraw_length s, fun k hk => ?_⟩
  rw [regionDraw_length] at hk
  obtain ⟨b, hb⟩ := key k hk
  simp [State.regionDraw, e, hb]

/-- Everything a region command can do (60_exceptions R203, R204, 20_memory R65): RegionError; its body on the region's
bytes; or, where a byte was never written, UninitRead is recorded and the outcome is free. -/
theorem withRegion_cases {s u : State} {body : State → List Byte → Except ErrorCode State} (h : withRegion s body = u) :
    (s.regionInside = false ∧ u = s.raise .regionError) ∨
    (∃ bs, s.RegionHolds bs ∧ u = complete s (body s bs)) ∨
    (s.regionInside = true ∧ s.regionWritten = false ∧
      ((∃ e, u = s.recordUninit.raise e) ∨
        ∃ bs : List Byte, bs.length = s.srcLen.toNat ∧ u = complete s.recordUninit (body s.recordUninit bs))) := by
  subst h
  simp only [withRegion]
  split
  · rename_i hi
    split
    · rename_i hw
      exact .inr (.inl ⟨_, regionHolds_draw hi hw, rfl⟩)
    · rename_i hw
      refine .inr (.inr ⟨hi, by simpa using hw, ?_⟩)
      simp only [uninitEnd]
      split
      · exact .inl ⟨_, rfl⟩
      · exact .inr ⟨_, regionDraw_length s, rfl⟩
  · rename_i hi
    exact .inl ⟨by simpa using hi, rfl⟩

/-- What a property of states needs, to hold after a region command. -/
theorem withRegion_induction {P : State → Prop} {s : State} {body : State → List Byte → Except ErrorCode State}
    (raises : ∀ e, P (s.raise e)) (uninit : ∀ e, P (s.recordUninit.raise e))
    (runs : ∀ u, (u = s ∨ u = s.recordUninit) → ∀ bs : List Byte, bs.length = s.srcLen.toNat →
      ∀ t, body u bs = .ok t → P t.finish) : P (withRegion s body) := by
  rcases withRegion_cases (rfl : withRegion s body = _) with ⟨-, h⟩ | ⟨bs, hb, h⟩ | ⟨-, -, ⟨e, h⟩ | ⟨bs, hb, h⟩⟩
  · rw [h]; exact raises _
  · rw [h]
    cases hr : body s bs with
    | ok t => exact runs s (.inl rfl) bs hb.length t hr
    | error e => exact raises e
  · rw [h]; exact uninit e
  · rw [h]
    cases hr : body s.recordUninit bs with
    | ok t => exact runs _ (.inr rfl) bs hb t hr
    | error e => exact uninit e

end Sys2Proof.Machine
end

