-- ==== Sys2Proof/Laws/Step.lean ====
section
/-! SUPPORT. Everything a command, a bus access and a step can do, said once. -/

namespace Sys2Proof.Machine

/-- Every command ends in a next state (10_state R21). -/
theorem exec_next (i : Instr) (s : State) : ∃ t, exec i s = .next t := by
  cases i <;> exact ⟨_, rfl⟩

/-- A step is: nothing to do; the platform's reset; a bus access that is over at once; or a CMD write with its command. -/
theorem step_cases {s t : State} (h : step s = .next t) :
    (s.pending = [] ∧ t = s) ∨
    (∃ es, s.pending = .reset :: es ∧ t = { s with pending := es }.applyReset) ∨
    (∃ a es, s.pending = .access a :: es ∧ { s with pending := es }.access a = .done t) ∨
    (∃ a es w u, s.pending = .access a :: es ∧ { s with pending := es }.access a = .command w u ∧
      runCommand w u = .next t) := by
  simp only [step, runNext] at h
  split at h
  · rename_i hp
    exact .inl ⟨hp, by simpa using h.symm⟩
  · rename_i e es hp
    cases e with
    | access a =>
      simp only [runEvent, runAccess] at h
      split at h
      · rename_i u hu
        refine .inr (.inr (.inl ⟨a, es, hp, ?_⟩))
        rw [hu]
        simpa using h
      · rename_i w u hu
        exact .inr (.inr (.inr ⟨a, es, w, u, hp, hu, h⟩))
    | reset => exact .inr (.inl ⟨es, hp, by simpa [runEvent] using h.symm⟩)
    | secondHost a => simp [runEvent] at h

/-- A CMD write's word is run, or IllegalCommand is raised (30_encoding R72). -/
theorem runCommand_cases {w : Word} {u t : State} (h : runCommand w u = .next t) :
    (∃ i, decode w = some i ∧ exec i u = .next t) ∨ (decode w = none ∧ t = u.raise .illegalCommand) := by
  simp only [runCommand] at h
  split at h
  · rename_i i hi
    exact .inl ⟨i, hi, h⟩
  · rename_i hn
    exact .inr ⟨hn, by simpa using h.symm⟩

/-- The only access that starts a command is a legal write to CMD, and it changes nothing but the response. -/
theorem access_command {s u : State} {a : Access} {w : Word} (h : s.access a = .command w u) : u = s.respondDone := by
  cases a <;> simp only [State.access] at h
  case write32 addr w' =>
    split at h
    · split at h <;> try cases h
      simp only [State.writeCtrl] at h
      split at h
      · cases h
      · split at h <;> first
          | (simp only [BusResult.command.injEq] at h; exact h.2.symm)
          | cases h
    · cases h
  all_goals first
    | (split at h <;> first | cases h | (split at h <;> cases h))
    | cases h

/-- What a finished bus access leaves alone: no access is a command (20_memory R52 to R55). -/
theorem access_done {s t : State} {a : Access} (h : s.access a = .done t) :
    t.params = s.params ∧ t.stage = s.stage ∧ t.store = s.store ∧ t.obuf = s.obuf ∧ t.outLen = s.outLen ∧
    t.err = s.err ∧ t.errcode = s.errcode ∧ t.removed = s.removed ∧ t.tcflags = s.tcflags ∧
    t.crcResult = s.crcResult ∧ t.pending = s.pending ∧ t.faults.uninitRead = s.faults.uninitRead ∧
    (s.faults.busError = true → t.faults.busError = true) ∧
    (t.ibuf = s.ibuf ∨ ∃ i bs, i + bs.length ≤ s.params.ibufSize ∧ t.ibuf = Memory.writeBytes s.ibuf i bs) := by
  have dt : ∀ (p : Params) (addr : Word) (i : Nat), targetOf p addr = .ibuf i → i + 1 ≤ p.ibufSize := by
    intro p addr i hi
    simp only [targetOf] at hi
    split at hi
    · cases hi
    · split at hi
      · rename_i hb
        simp only [Target.ibuf.injEq] at hi
        omega
      · split at hi <;> cases hi
  cases a with
  | read8 addr =>
    simp only [State.access] at h
    split at h <;> cases h <;> simp [State.readByte]
  | read32 addr =>
    simp only [State.access] at h
    split at h
    · split at h <;> cases h
      · simp only [State.readCtrl]; split <;> simp
      · simp only [State.readWord]; split <;> simp
      · simp only [State.readWord]; split <;> simp
      · simp
    · cases h; simp
  | write8 addr b =>
    simp only [State.access] at h
    split at h <;> cases h
    · rename_i i hi
      simp only [State.respondDone_params, State.respondDone_stage, State.respondDone_store, State.respondDone_obuf,
        State.respondDone_outLen, State.respondDone_err, State.respondDone_errcode, State.respondDone_removed,
        State.respondDone_tcflags, State.respondDone_crcResult, State.respondDone_pending, State.respondDone_faults,
        State.respondDone_ibuf, true_and, imp_self]
      exact .inr ⟨i, [b], dt _ _ _ hi, rfl⟩
    all_goals simp
  | write32 addr w =>
    simp only [State.access] at h
    split at h
    · split at h
      · simp only [State.writeCtrl] at h
        split at h
        · cases h; simp
        · rename_i off _ r _
          split at h <;> cases h
          · cases r <;> simp [State.writeReg]
          · simp
      · rename_i i hi
        cases h
        simp only [State.writeIbufWord]
        split
        · simp only [State.respondDone_params, State.respondDone_stage, State.respondDone_store, State.respondDone_obuf,
            State.respondDone_outLen, State.respondDone_err, State.respondDone_errcode, State.respondDone_removed,
            State.respondDone_tcflags, State.respondDone_crcResult, State.respondDone_pending, State.respondDone_faults,
            State.respondDone_ibuf, true_and, imp_self]
          exact .inr ⟨i, (be32 w).toList, by simpa using ‹_›, rfl⟩
        · simp
      · cases h; simp
      · cases h; simp
    · cases h; simp
  | otherWidth wr addr =>
    simp only [State.access] at h
    cases h
    simp

end Sys2Proof.Machine
end

