-- ==== Sys2Proof/Laws/Bus.lean ====
section
/-! SUPPORT. What the address map and the register map give, said once, and how an access becomes a step. -/

namespace Sys2Proof.Machine

/-- The bounds that legal parameters give (00_scope R5). -/
theorem params_sizes {p : Params} (h : p.wf = true) :
    12 ≤ p.ibufSize ∧ p.ibufSize ≤ 2 ^ 28 ∧ 12 ≤ p.obufSize ∧ p.obufSize ≤ 2 ^ 28 := by
  simp only [Params.wf, bufferSizeLegal, Bool.and_eq_true, decide_eq_true_eq] at h
  omega

/-- A number below 2^32 is a register's value unchanged (00_scope R12). -/
theorem regOfNat_toNat {n : Nat} (h : n < 2 ^ 32) : (regOfNat n).toNat = n := by
  rw [regOfNat, if_pos h, BitVec.toNat_ofNat, Nat.mod_eq_of_lt h]

theorem step_access {s : State} {a : Access} {es : List HostEvent} (h : s.pending = .access a :: es) :
    step s = runAccess a { s with pending := es } := by
  simp [step, runNext, h, runEvent]

theorem step_of_done {s t : State} {a : Access} {es : List HostEvent} (h : s.pending = .access a :: es)
    (hd : State.access { s with pending := es } a = .done t) : step s = .next t := by
  rw [step_access h, runAccess, hd]

/-- A run of one step more begins with that step. -/
theorem run_succ {s t : State} (h : step s = .next t) (n : Nat) :
    Host.Core.run Sys2Proof.core (n + 1) s = Host.Core.run Sys2Proof.core n t := by
  have h : Sys2Proof.core.step s = .next t := h
  simp only [Host.Core.run, h]

/-- The address map of 20_memory R51: the four cases, which exclude each other for legal parameters. -/
theorem targetOf_cases {p : Params} (hw : p.wf = true) (a : Word) :
    (a.toNat < 0x100 ∧ targetOf p a = .ctrl a.toNat) ∨
    (0x10000000 ≤ a.toNat ∧ a.toNat < 0x10000000 + p.ibufSize ∧ targetOf p a = .ibuf (a.toNat - 0x10000000)) ∨
    (0x20000000 ≤ a.toNat ∧ a.toNat < 0x20000000 + p.obufSize ∧ targetOf p a = .obuf (a.toNat - 0x20000000)) ∨
    (0x100 ≤ a.toNat ∧ ¬ (0x10000000 ≤ a.toNat ∧ a.toNat < 0x10000000 + p.ibufSize) ∧
      ¬ (0x20000000 ≤ a.toNat ∧ a.toNat < 0x20000000 + p.obufSize) ∧ targetOf p a = .unmapped) := by
  have hs := params_sizes hw
  by_cases h0 : a.toNat < 0x100
  · exact .inl ⟨h0, if_pos h0⟩
  by_cases h1 : 0x10000000 ≤ a.toNat ∧ a.toNat < 0x10000000 + p.ibufSize
  · exact .inr (.inl ⟨h1.1, h1.2, (if_neg h0).trans (if_pos h1)⟩)
  by_cases h2 : 0x20000000 ≤ a.toNat ∧ a.toNat < 0x20000000 + p.obufSize
  · exact .inr (.inr (.inl ⟨h2.1, h2.2, (if_neg h0).trans ((if_neg h1).trans (if_pos h2))⟩))
  · exact .inr (.inr (.inr ⟨Nat.le_of_not_lt h0, h1, h2, (if_neg h0).trans ((if_neg h1).trans (if_neg h2))⟩))

/-- An address sum that is an address is the address of a host line's access (30_encoding R76). -/
theorem busAddress_of_lt {n : Nat} (h : n < 2 ^ 32) : busAddress n = BitVec.ofNat 32 n := if_pos h

theorem targetOf_ibuf {p : Params} {i : Nat} (hw : p.wf = true) (h : i < p.ibufSize) :
    targetOf p (BitVec.ofNat 32 (0x10000000 + i)) = .ibuf i := by
  have hs := params_sizes hw
  have e : (BitVec.ofNat 32 (0x10000000 + i)).toNat = 0x10000000 + i := by
    rw [BitVec.toNat_ofNat, Nat.mod_eq_of_lt (by omega)]
  rcases targetOf_cases hw (BitVec.ofNat 32 (0x10000000 + i)) with ⟨h1, -⟩ | ⟨-, -, h1⟩ | ⟨h1, -⟩ | ⟨-, h1, -⟩
  · omega
  · rw [h1, e, Nat.add_sub_cancel_left]
  · omega
  · omega

theorem targetOf_obuf {p : Params} {i : Nat} (hw : p.wf = true) (h : i < p.obufSize) :
    targetOf p (BitVec.ofNat 32 (0x20000000 + i)) = .obuf i := by
  have hs := params_sizes hw
  have e : (BitVec.ofNat 32 (0x20000000 + i)).toNat = 0x20000000 + i := by
    rw [BitVec.toNat_ofNat, Nat.mod_eq_of_lt (by omega)]
  rcases targetOf_cases hw (BitVec.ofNat 32 (0x20000000 + i)) with ⟨h1, -⟩ | ⟨-, h1, -⟩ | ⟨-, -, h1⟩ | ⟨-, -, h1, -⟩
  · omega
  · omega
  · rw [h1, e, Nat.add_sub_cancel_left]
  · omega

/-- A register stands at each 4-aligned offset from 0x00 to 0x4C (10_state R22). -/
theorem regAt_of_le {n : Nat} (h : n ≤ 0x4C) (h4 : n % 4 = 0) : ∃ r, regAt n = some r ∧ n = regOffset r := by
  obtain ⟨q, rfl⟩ : ∃ q, n = 4 * q := ⟨n / 4, by omega⟩
  have hq : ∀ q < 20, ∃ r, regAt (4 * q) = some r ∧ 4 * q = regOffset r := by
    intro q hq
    match q, hq with
    | 0, _ | 1, _ | 2, _ | 3, _ | 4, _ | 5, _ | 6, _ | 7, _ | 8, _ | 9, _ => exact ⟨_, rfl, rfl⟩
    | 10, _ | 11, _ | 12, _ | 13, _ | 14, _ | 15, _ | 16, _ | 17, _ | 18, _ | 19, _ => exact ⟨_, rfl, rfl⟩
    | q + 20, hq => omega
  exact hq q (by omega)

/-- No register stands past 0x4C (10_state R22). -/
theorem regAt_of_gt {n : Nat} (h : 0x4C < n) : regAt n = none := by
  simp only [regAt]
  split <;> first | omega | rfl

/-- A buffer stays canonical and inside its size when bytes inside the size are written. -/
theorem Memory.fits_writeBytes {m : Memory} {size i : Nat} {bs : List Byte} (h : Memory.fits m size)
    (hb : i + bs.length ≤ size) : Memory.fits (Memory.writeBytes m i bs) size :=
  ⟨Memory.writeBytes_wf h.1 _ _, fun c hc => by
    rcases Memory.mem_writeBytes hc with h' | h'
    · omega
    · exact h.2 c h'⟩

/-- The reset buffers are in canonical form. -/
theorem reset_buffers_wf (p : Params) :
    Memory.wf (State.resetWith p).ibuf ∧ Memory.wf (State.resetWith p).obuf :=
  ⟨List.Pairwise.nil, List.Pairwise.nil⟩

end Sys2Proof.Machine
end

