-- ==== Sys2Proof/Laws/Bytes.lean ====
section
/-! SUPPORT. The laws of the byte-order helpers: packing and unpacking are inverse, and what 4 bytes of a sequence are. -/

namespace Sys2Proof.Machine

@[simp] theorem rdBe32_be32 (v : Word) : rdBe32 (be32 v) = v := by
  simp only [rdBe32, be32]
  ext i hi
  simp only [BitVec.getElem_append, BitVec.getElem_extractLsb']
  grind

@[simp] theorem be32_rdBe32 (t : Bytes4) : be32 (rdBe32 t) = t := by
  obtain ⟨a, b, c, d⟩ := t
  simp only [be32, rdBe32, Bytes4.mk.injEq]
  refine ⟨?_, ?_, ?_, ?_⟩ <;>
    (ext i hi
     simp only [BitVec.getElem_extractLsb', BitVec.getLsbD_append]
     grind)

@[simp] theorem unpack4_pack4 (t : Bytes4) : unpack4 (pack4 t) = t := be32_rdBe32 t

@[simp] theorem pack4_unpack4 (v : Word) : pack4 (unpack4 v) = v := rdBe32_be32 v

/-- Four bytes read where a 4-byte sequence stands give that sequence. -/
theorem fourAt_append (pre post : List Byte) (t : Bytes4) :
    fourAt (pre ++ t.toList ++ post) pre.length = t := by
  obtain ⟨a, b, c, d⟩ := t
  simp [fourAt, List.getD_eq_getElem?_getD]

/-- The 4 bytes read at `k` are the slice `[k, k + 4)`. -/
theorem fourAt_toList (s : List Byte) (k : Nat) (h : k + 4 ≤ s.length) :
    (fourAt s k).toList = (s.drop k).take 4 := by
  have e : s.drop k = s[k] :: s[k + 1] :: s[k + 2] :: s[k + 3] :: s.drop (k + 4) := by
    rw [List.drop_eq_getElem_cons (by omega), List.drop_eq_getElem_cons (by omega),
      List.drop_eq_getElem_cons (by omega), List.drop_eq_getElem_cons (by omega)]
  rw [e]
  simp (disch := omega) only [fourAt, Bytes4.toList, List.getD_eq_getElem?_getD, List.getElem?_eq_getElem,
    Option.getD_some, List.take_succ_cons, List.take_zero]

end Sys2Proof.Machine
end

