-- ==== Sys2Proof/Laws/Crc.lean ====
section
/-! SUPPORT. The laws of the CRC's running value: it is a fold, and each of its steps is injective. -/

namespace Sys2Proof.Machine

@[simp] theorem crcRun_nil (c : Word) : crcRun c [] = c := rfl

@[simp] theorem crcRun_cons (c : Word) (b : Byte) (s : List Byte) : crcRun c (b :: s) = crcRun (crcByte c b) s := rfl

theorem crcRun_append (c : Word) (s t : List Byte) : crcRun c (s ++ t) = crcRun (crcRun c s) t := by
  simp [crcRun, List.foldl_append]

theorem word_xor_right_cancel {a b c : Word} (h : a ^^^ c = b ^^^ c) : a = b := by
  have := congrArg (· ^^^ c) h
  simpa [BitVec.xor_assoc] using this

/-- The top bit of a bit step's result tells which branch it took, so nothing is lost. -/
theorem crcBit_injective {c d : Word} (h : crcBit c = crcBit d) : c = d := by
  have hc : c &&& 1 = 1 ↔ c.getLsbD 0 = true := by
    constructor
    · intro h; have := congrArg (·.getLsbD 0) h; simpa using this
    · intro h; ext i hi; cases i <;> simp_all [BitVec.getElem_one]
  have hd : d &&& 1 = 1 ↔ d.getLsbD 0 = true := by
    constructor
    · intro h; have := congrArg (·.getLsbD 0) h; simpa using this
    · intro h; ext i hi; cases i <;> simp_all [BitVec.getElem_one]
  have shift : ∀ {x y : Word}, x >>> 1 = y >>> 1 → x.getLsbD 0 = y.getLsbD 0 → x = y := by
    intro x y h h0
    apply BitVec.eq_of_getLsbD_eq
    intro i hi
    cases i with
    | zero => exact h0
    | succ i => have := congrArg (·.getLsbD i) h; simpa [Nat.add_comm] using this
  have top : ∀ x y : Word, ((x >>> 1) ^^^ 0xEDB88320) ≠ y >>> 1 := by
    intro x y h
    have := congrArg (·.getLsbD 31) h
    simp at this
  simp only [crcBit, hc, hd] at h
  split at h <;> split at h
  · rename_i h1 h2
    exact shift (word_xor_right_cancel h) (by rw [h1, h2])
  · exact absurd h (top c d)
  · exact absurd h.symm (top d c)
  · rename_i h1 h2
    exact shift h (by simp_all)

theorem crcByte_injective_left {c d : Word} {b : Byte} (h : crcByte c b = crcByte d b) : c = d := by
  simp only [crcByte] at h
  have := crcBit_injective (crcBit_injective (crcBit_injective (crcBit_injective (crcBit_injective
    (crcBit_injective (crcBit_injective (crcBit_injective h)))))))
  exact word_xor_right_cancel this

theorem crcRun_injective_left {c d : Word} {s : List Byte} (h : crcRun c s = crcRun d s) : c = d := by
  induction s generalizing c d with
  | nil => exact h
  | cons b s ih => exact crcByte_injective_left (ih h)

end Sys2Proof.Machine
end

