-- ==== Sys2Proof/Laws/PerInstr.lean ====
section
/-! SUPPORT. Per-command laws about commands as syntax: the family CommandWord. -/

namespace Sys2Proof.Laws.CommandWord

/-- The command is well-formed, its word has RSVD clear (30_encoding R70), and its word decodes to it (30_encoding R72). -/
def Statement (i : Instr) : Prop :=
  i.wellFormed = true ∧ reservedClear (encode i) = true ∧ decode (encode i) = some i

theorem tcCheck : Statement .tcCheck := ⟨rfl, by decide, by decide⟩
theorem tcFromString : Statement .tcFromString := ⟨rfl, by decide, by decide⟩
theorem crcGen : Statement .crcGen := ⟨rfl, by decide, by decide⟩
theorem crcCheck : Statement .crcCheck := ⟨rfl, by decide, by decide⟩
theorem crcRaw : Statement .crcRaw := ⟨rfl, by decide, by decide⟩
theorem segNew : Statement .segNew := ⟨rfl, by decide, by decide⟩
theorem segDecode : Statement .segDecode := ⟨rfl, by decide, by decide⟩
theorem segEncode : Statement .segEncode := ⟨rfl, by decide, by decide⟩
theorem segRead : Statement .segRead := ⟨rfl, by decide, by decide⟩
theorem conNew : Statement .conNew := ⟨rfl, by decide, by decide⟩
theorem conDecode : Statement .conDecode := ⟨rfl, by decide, by decide⟩
theorem conEncode : Statement .conEncode := ⟨rfl, by decide, by decide⟩
theorem conAppend : Statement .conAppend := ⟨rfl, by decide, by decide⟩
theorem conRemove : Statement .conRemove := ⟨rfl, by decide, by decide⟩

end Sys2Proof.Laws.CommandWord
end

