-- ==== Sys2Proof/Laws/Record.lean ====
section
/-! SUPPORT. The record's encoding and its parser are inverse on well-formed segments, and the record loop's equations. -/

namespace Sys2Proof.Machine

@[simp] theorem enc_length (g : Segment) : (enc g).length = 12 + g.payload.length := by
  simp [enc]; omega

/-- Where the fields of an encoded record stand (42_segment R140). -/
theorem recordSegment_enc {g : Segment} (h : g.wf) (rest : List Byte) : recordSegment (enc g ++ rest) = g := by
  obtain ⟨len, ⟨t0, t1, t2, t3⟩, payload, crc⟩ := g
  have hl : len.toNat = payload.length := h.lenIsPayloadLength
  have e0 : fourAt (enc ⟨len, ⟨t0, t1, t2, t3⟩, payload, crc⟩ ++ rest) 0 = be32 len := by
    simp [fourAt, enc]
  have e4 : fourAt (enc ⟨len, ⟨t0, t1, t2, t3⟩, payload, crc⟩ ++ rest) 4 = ⟨t0, t1, t2, t3⟩ := by
    simp [fourAt, enc]
  have eL : recordLen (enc ⟨len, ⟨t0, t1, t2, t3⟩, payload, crc⟩ ++ rest) = payload.length := by
    rw [recordLen, e0, rdBe32_be32, hl]
  have ep : recordPayload (enc ⟨len, ⟨t0, t1, t2, t3⟩, payload, crc⟩ ++ rest) = payload := by
    rw [recordPayload, eL]
    simp [enc]
  have ec : fourAt (enc ⟨len, ⟨t0, t1, t2, t3⟩, payload, crc⟩ ++ rest) (8 + payload.length) = be32 crc := by
    have := fourAt_append ((be32 len).toList ++ [t0, t1, t2, t3] ++ payload) rest (be32 crc)
    have hk : ((be32 len).toList ++ [t0, t1, t2, t3] ++ payload).length = 8 + payload.length := by
      simp; omega
    rw [hk] at this
    simpa [enc] using this
  simp [recordSegment, e0, e4, eL, ep, ec]

theorem recordLen_eq (r : List Byte) : recordLen r = (recordSegment r).len.toNat := rfl

/-- An encoded well-formed segment parses back to itself, whatever follows it (42_segment R142, R151). -/
theorem parseRecord_enc {g : Segment} (h : g.wf) (rest : List Byte) {mode : ParseMode}
    (hm : mode = .leading ∨ rest = []) :
    parseRecord (enc g ++ rest) mode = .ok (g, 12 + g.payload.length) := by
  have e := recordSegment_enc h rest
  have eL : recordLen (enc g ++ rest) = g.payload.length := by rw [recordLen_eq, e, h.lenIsPayloadLength]
  have hc : segCrc g.type g.payload = g.crc := h.crcIsRecomputed.symm
  have hl : (enc g ++ rest).length = 12 + g.payload.length + rest.length := by simp
  have h1 : ¬ (mode = .exact ∧ 12 + g.payload.length < (enc g ++ rest).length) := by
    rintro ⟨hx, hy⟩
    rcases hm with hm | hm
    · rw [hm] at hx; cases hx
    · subst hm; simp at hy
  simp only [parseRecord, e, eL]
  rw [if_neg (by omega), if_neg (by omega), if_neg h1, if_pos hc, if_pos h.typeIsLetters]

theorem fourAt_take (r : List Byte) (k : Nat) (h : k + 4 ≤ r.length) :
    r.drop k = (fourAt r k).toList ++ r.drop (k + 4) := by
  rw [fourAt_toList r k h, ← List.drop_drop, List.take_append_drop]

/-- A record that parses is well-formed (10_state R47), and its bytes are exactly its encoding. -/
theorem parseRecord_ok {r : List Byte} {mode : ParseMode} {g : Segment} {k : Nat}
    (h : parseRecord r mode = .ok (g, k)) :
    g.wf ∧ k = 12 + g.payload.length ∧ r = enc g ++ r.drop k ∧ (mode = .exact → r.drop k = []) := by
  simp only [parseRecord] at h
  split at h
  · cases h
  split at h
  · cases h
  split at h
  · cases h
  split at h
  case isFalse => cases h
  split at h
  case isFalse => cases h
  rename_i h1 h2 h3 hc ht
  simp only [Except.ok.injEq, Prod.mk.injEq] at h
  obtain ⟨rfl, rfl⟩ := h
  have hp : (recordSegment r).payload.length = recordLen r := by
    simp only [recordSegment, recordPayload, List.length_take, List.length_drop]; omega
  refine ⟨⟨by rw [hp]; rfl, hc.symm, ht⟩, by rw [hp], ?_, fun hm => ?_⟩
  · have a0 := fourAt_take r 0 (by omega)
    have a4 := fourAt_take r 4 (by omega)
    have a8 := (List.take_append_drop (recordLen r) (r.drop 8)).symm
    have ac := fourAt_take r (8 + recordLen r) (by omega)
    rw [List.drop_drop] at a8
    simp only [List.drop_zero, Nat.zero_add] at a0
    simp only [enc, recordSegment, recordPayload, be32_rdBe32, List.append_assoc]
    conv => lhs; rw [a0, a4, a8, ac]
    rw [show 8 + recordLen r + 4 = 12 + recordLen r by omega]
  · rw [List.drop_eq_nil_iff]
    have : ¬ 12 + recordLen r < r.length := fun hx => h3 ⟨hm, hx⟩
    omega

/-- More rounds than bytes change nothing, so `parseRecords` is the unbounded loop of 43_container R172. -/
theorem parseRecordsFuel_enough (r : List Byte) (m n : Nat) (hm : r.length ≤ m) (hn : r.length ≤ n) :
    parseRecordsFuel m r = parseRecordsFuel n r := by
  induction m generalizing r n with
  | zero =>
    have : r = [] := List.length_eq_zero_iff.mp (by omega)
    subst this
    cases n <;> rfl
  | succ m ih =>
    match r, n with
    | [], n => cases n <;> rfl
    | b :: r, 0 => simp at hn
    | b :: r, n + 1 =>
      simp only [parseRecordsFuel]
      cases hp : parseRecord (b :: r) .leading with
      | error e => rfl
      | ok x =>
        obtain ⟨g, k⟩ := x
        have hk := (parseRecord_ok hp).2.1
        have hd : ((b :: r).drop k).length ≤ r.length := by
          simp only [List.length_drop, List.length_cons]; omega
        simp only [List.length_cons] at hm hn
        dsimp only
        rw [ih ((b :: r).drop k) n (by omega) (by omega)]

@[simp] theorem parseRecords_nil : parseRecords [] = .ok [] := rfl

/-- One round of the loop of 43_container R172. -/
theorem parseRecords_step {r : List Byte} (hr : r ≠ []) :
    parseRecords r = (match parseRecord r .leading with
      | .error e => .error e
      | .ok (g, k) => match parseRecords (r.drop k) with
        | .error e => .error e
        | .ok gs => .ok (g :: gs)) := by
  obtain ⟨b, r, rfl⟩ := List.exists_cons_of_ne_nil hr
  simp only [parseRecords, List.length_cons, parseRecordsFuel]
  cases hp : parseRecord (b :: r) .leading with
  | error e => rfl
  | ok x =>
    obtain ⟨g, k⟩ := x
    have hk := (parseRecord_ok hp).2.1
    have hd : ((b :: r).drop k).length ≤ r.length := by
      simp only [List.length_drop, List.length_cons]; omega
    show (match parseRecordsFuel r.length ((b :: r).drop k) with | .error e => _ | .ok gs => _) = _
    rw [parseRecordsFuel_enough _ r.length _ hd (Nat.le_refl _)]

theorem enc_ne_nil (g : Segment) : enc g ≠ [] := by
  intro h
  have := congrArg List.length h
  simp at this

/-- A well-formed record in front is the loop's first segment. -/
theorem parseRecords_enc_append {g : Segment} (h : g.wf) (rest : List Byte) :
    parseRecords (enc g ++ rest) = (match parseRecords rest with
      | .error e => .error e
      | .ok gs => .ok (g :: gs)) := by
  rw [parseRecords_step (by simp [enc_ne_nil]), parseRecord_enc h rest (.inl rfl)]
  simp

/-- What the record loop accepts is well-formed (10_state R47). -/
theorem parseRecordsFuel_wf {n : Nat} {r : List Byte} {gs : List Segment} (h : parseRecordsFuel n r = .ok gs) :
    ∀ g ∈ gs, g.wf := by
  induction n generalizing r gs with
  | zero =>
    cases r with
    | nil => simp only [parseRecordsFuel, Except.ok.injEq] at h; subst h; simp
    | cons b r => simp [parseRecordsFuel] at h
  | succ n ih =>
    cases r with
    | nil => simp only [parseRecordsFuel, Except.ok.injEq] at h; subst h; simp
    | cons b r =>
      simp only [parseRecordsFuel] at h
      split at h
      · cases h
      · rename_i g k hp
        split at h
        · cases h
        · rename_i gs' hg
          cases h
          intro g' hg'
          rcases List.mem_cons.mp hg' with rfl | hg'
          · exact (parseRecord_ok hp).1
          · exact ih hg g' hg'

theorem storeBytesOf_append (a b : List Segment) : storeBytesOf (a ++ b) = storeBytesOf a + storeBytesOf b := by
  induction a with
  | nil => simp [storeBytesOf]
  | cons g a ih => simp [storeBytesOf, ih, Nat.add_assoc]

/-- For well-formed segments the two sums of 43_container R172 and 10_state R41 are one. -/
theorem lenSum_eq_storeBytesOf {gs : List Segment} (h : ∀ g ∈ gs, g.wf) : lenSum gs = storeBytesOf gs := by
  induction gs with
  | nil => rfl
  | cons g gs ih =>
    simp [lenSum, storeBytesOf, (h g (by simp)).lenIsPayloadLength, ih fun g hg => h g (by simp [hg])]

end Sys2Proof.Machine
end

