-- ==== Sys2Proof/Tests/Slice0.lean ====
section
/-! SUPPORT. The model's own tests: ill-formed terms, command words, one step a test with the values of
spec/95_test_vectors.md, and for each statement with hypotheses a witness that meets them. -/

namespace Sys2Proof.Tests

open Sys2Proof.Machine

/-! ## Small states -/

/-- The state that a step answers, if it answers one. -/
def nextOf : Host.Outcome State Fault Refusal → Option State
  | .next t => some t
  | .fault _ => none
  | .refused _ => none

/-- Reset with `bs` written at `off` of IBUF and the source region set to it. -/
def withBytes (off : Nat) (bs : List Byte) : State :=
  { State.reset with
    ibuf := Memory.writeBytes [] off bs, srcOff := BitVec.ofNat 32 off, srcLen := BitVec.ofNat 32 bs.length }

/-- Reset with one host access to come. -/
def withAccess (a : Access) : State := { State.reset with pending := [.access a] }

/-- `s` with a CMD write to come. -/
def withCmd (s : State) (w : Word) : State := { s with pending := [.access (.write32 0x00000000 w)] }

/-- `s` with another OBUF size, and with other store limits. -/
def withObuf (s : State) (n : Nat) : State := { s with params := { s.params with obufSize := n } }
def withLimits (s : State) (m b : Option Nat) : State := { s with params := { s.params with maxSegments := m, storeBytes := b } }

def rust : List Byte := [0x52, 0x75, 0x53, 0x74]
def secret : List Byte := [0x73, 0x65, 0x63, 0x72, 0x65, 0x74]
def hello : List Byte := [0x68, 0x65, 0x6C, 0x6C, 0x6F]

/-- RuSt/"secret", teXt/"hello" and IEND/"", with the checksums of 95_test_vectors section 0. -/
def segA : Segment := ⟨6, ⟨0x52, 0x75, 0x53, 0x74⟩, secret, 0xCAB1F1C2⟩
def segB : Segment := ⟨5, ⟨0x74, 0x65, 0x58, 0x74⟩, hello, 0xA3F69134⟩
def segE : Segment := ⟨0, ⟨0x49, 0x45, 0x4E, 0x44⟩, [], 0xAE426082⟩

def recA : List Byte :=
  [0x00, 0x00, 0x00, 0x06, 0x52, 0x75, 0x53, 0x74, 0x73, 0x65, 0x63, 0x72, 0x65, 0x74, 0xCA, 0xB1, 0xF1, 0xC2]
def recB : List Byte :=
  [0x00, 0x00, 0x00, 0x05, 0x74, 0x65, 0x58, 0x74, 0x68, 0x65, 0x6C, 0x6C, 0x6F, 0xA3, 0xF6, 0x91, 0x34]
def recE : List Byte := [0x00, 0x00, 0x00, 0x00, 0x49, 0x45, 0x4E, 0x44, 0xAE, 0x42, 0x60, 0x82]
def img0 : List Byte := [0x89, 0x50, 0x4E, 0x47, 0x0D, 0x0A, 0x1A, 0x0A]
def img2 : List Byte := img0 ++ recA ++ recB

/-- After CON_DECODE of IMG_2, and after SEG_NEW of RuSt/"secret". -/
def stored : State := { State.reset with store := [segA, segB] }
def staged : State := { State.reset with stage := ⟨true, segA⟩ }

theorem holds_withBytes {off : Nat} {bs : List Byte} (h : off + bs.length ≤ 256) : (withBytes off bs).RegionHolds bs := by
  have e1 : (BitVec.ofNat 32 off).toNat = off := by rw [BitVec.toNat_ofNat, Nat.mod_eq_of_lt (by omega)]
  have e2 : (BitVec.ofNat 32 bs.length).toNat = bs.length := by rw [BitVec.toNat_ofNat, Nat.mod_eq_of_lt (by omega)]
  refine ⟨?_, e2.symm, fun k hk => ?_⟩
  · show (BitVec.ofNat 32 off).toNat + (BitVec.ofNat 32 bs.length).toNat ≤ 256
    omega
  · show Memory.read (Memory.writeBytes [] off bs) ((BitVec.ofNat 32 off).toNat + k) = some bs[k]
    rw [e1, Memory.read_writeBytes, if_pos (by omega), Nat.add_sub_cancel_left, List.getElem?_eq_getElem hk]

theorem segA_wf : segA.wf := ⟨rfl, by decide +kernel, by decide⟩
theorem segB_wf : segB.wf := ⟨rfl, by decide +kernel, by decide⟩
theorem segE_wf : segE.wf := ⟨rfl, by decide +kernel, by decide⟩

theorem segAB_wf : ∀ g ∈ [segA, segB], g.wf := by
  intro g hg
  rcases List.mem_cons.mp hg with rfl | hg
  · exact segA_wf
  · rcases List.mem_cons.mp hg with rfl | hg
    · exact segB_wf
    · cases hg

/-! ## Ill-formed terms (30_encoding R70, 00_scope R5, 10_state R47) -/

theorem test_reserved_bits_refused : reservedClear 0x00000130 = false ∧ reservedClear 0x80000001 = false := by decide
theorem test_reserved_bits_clear : reservedClear 0x000000FF = true := by decide
theorem test_buffer_too_small : bufferSizeLegal 11 = false ∧ bufferSizeLegal 12 = true := by decide
theorem test_buffer_too_big : bufferSizeLegal (2 ^ 28 + 1) = false ∧ bufferSizeLegal (2 ^ 28) = true := by decide
theorem test_no_segments_refused : maxSegmentsLegal (some 0) = false ∧ maxSegmentsLegal (some 1) = true := by decide
theorem test_params_refused :
    { Params.vectors with ibufSize := 11 }.wf = false ∧ { Params.vectors with obufSize := 2 ^ 28 + 1 }.wf = false ∧
    { Params.vectors with maxSegments := some 0 }.wf = false ∧ Params.vectors.wf = true := by decide
theorem test_every_command_wellformed : Instr.segNew.wellFormed = true ∧ Instr.conRemove.wellFormed = true := by decide
theorem test_segment_wrong_length : ¬ { segA with len := 7 }.wf := fun h => absurd h.lenIsPayloadLength (by decide)
theorem test_segment_wrong_crc : ¬ { segA with crc := 0xCAB1F1C3 }.wf :=
  fun h => absurd h.crcIsRecomputed (by decide +kernel)
theorem test_segment_wrong_type : ¬ (⟨6, ⟨0x52, 0x75, 0x31, 0x74⟩, secret, 0x587F5604⟩ : Segment).wf :=
  fun h => absurd h.typeIsLetters (by decide)
theorem test_buffer_out_of_order : ¬ Memory.wf [(4, 0x00), (3, 0x00)] ∧ ¬ Memory.wf [(3, 0x00), (3, 0x01)] := by decide

/-! ## Command words (30_encoding R72, R74, and the words of 95_test_vectors section 2.6) -/

theorem test_decode_tcCheck : decode 0x00000001 = some .tcCheck := by decide
theorem test_decode_tcFromString : decode 0x00000002 = some .tcFromString := by decide
theorem test_decode_crcGen : decode 0x00000010 = some .crcGen := by decide
theorem test_decode_crcCheck : decode 0x00000011 = some .crcCheck := by decide
theorem test_decode_crcRaw : decode 0x00000012 = some .crcRaw := by decide
theorem test_decode_segNew : decode 0x00000020 = some .segNew := by decide
theorem test_decode_segDecode : decode 0x00000021 = some .segDecode := by decide
theorem test_decode_segEncode : decode 0x00000022 = some .segEncode := by decide
theorem test_decode_segRead : decode 0x00000023 = some .segRead := by decide
theorem test_decode_conNew : decode 0x00000030 = some .conNew := by decide
theorem test_decode_conDecode : decode 0x00000031 = some .conDecode := by decide
theorem test_decode_conEncode : decode 0x00000032 = some .conEncode := by decide
theorem test_decode_conAppend : decode 0x00000033 = some .conAppend := by decide
theorem test_decode_conRemove : decode 0x00000034 = some .conRemove := by decide
theorem test_decode_illegal : ([0x00000000, 0x00000003, 0x00000013, 0x00000024, 0x00000035, 0x000000FF, 0x00000130,
    0x80000001] : List Word).map decode = List.replicate 8 none := by decide
theorem test_decodeTableWord : decodeTableWord 32 0x30 = some .conNew ∧ decodeTableWord 32 0x130 = none ∧
    decodeTableWord 8 0x34 = some .conRemove := by decide

/-! ## One step an instruction: at most two tests each, values from 95_test_vectors section 2 -/

/-- V1.1. -/
theorem test_tcCheck_rust : (nextOf (exec .tcCheck { State.reset with typeArg := 0x52755374 })).map
    (fun t => (t.readReg .tcflags, t.readReg .errcode)) = some (0x1D, 0) := by decide
/-- V1.15. -/
theorem test_tcCheck_failure_keeps_flags :
    (nextOf (exec .tcCheck { State.reset with typeArg := 0x52753174, tcflags := 0x1D })).map
      (fun t => (t.readReg .tcflags, t.readReg .errcode, t.readReg .status)) = some (0x1D, 2, 1) := by decide
/-- V1.21. -/
theorem test_tcFromString_rust : (nextOf (exec .tcFromString (withBytes 0 [0x52, 0x75, 0x73, 0x74]))).map
    (fun t => (t.readReg .typeArg, t.readReg .tcflags, t.readReg .errcode)) = some (0x52757374, 0x09, 0) := by decide
/-- V1.28. -/
theorem test_tcFromString_utf8 : (nextOf (exec .tcFromString (withBytes 0 [0xC3, 0xA9, 0x73, 0x74]))).map
    (fun t => (t.readReg .typeArg, t.readReg .errcode)) = some (0, 1) := by decide
/-- V2.20. -/
theorem test_crcGen_secret : (nextOf (exec .crcGen { withBytes 0 secret with typeArg := 0x52755374 })).map
    (fun t => (t.readReg .crcResult, t.readReg .errcode)) = some (0xCAB1F1C2, 0) := by decide +kernel
/-- V2.24. -/
theorem test_crcGen_no_letters : (nextOf (exec .crcGen State.reset)).map
    (fun t => (t.readReg .crcResult, t.readReg .errcode)) = some (0x2144DF1C, 0) := by decide +kernel
/-- V2.30. -/
theorem test_crcCheck_equal :
    (nextOf (exec .crcCheck { withBytes 0 secret with typeArg := 0x52755374, crcExpect := 0xCAB1F1C2 })).map
      (fun t => (t.readReg .crcResult, t.readReg .errcode)) = some (0xCAB1F1C2, 0) := by decide +kernel
/-- V2.33. -/
theorem test_crcCheck_swapped :
    (nextOf (exec .crcCheck { withBytes 0 secret with typeArg := 0x52755374, crcExpect := 0xC2F1B1CA })).map
      (fun t => (t.readReg .crcResult, t.readReg .errcode)) = some (0, 4) := by decide +kernel
/-- V2.2. -/
theorem test_crcRaw_check_value :
    (nextOf (exec .crcRaw (withBytes 0 [0x31, 0x32, 0x33, 0x34, 0x35, 0x36, 0x37, 0x38, 0x39]))).map
      (fun t => (t.readReg .crcResult, t.readReg .errcode)) = some (0xCBF43926, 0) := by decide +kernel
/-- P4 line 6. -/
theorem test_crcRaw_outside : (nextOf (exec .crcRaw { State.reset with srcOff := 250, srcLen := 7 })).map
    (fun t => (t.readReg .crcResult, t.readReg .errcode)) = some (0, 0x11) := by decide
/-- V3.1. -/
theorem test_segNew_secret : (nextOf (exec .segNew { withBytes 0 secret with typeArg := 0x52755374 })).map
    (fun t => (t.stage.seg, t.readReg .status)) = some (segA, 2) := by decide +kernel
/-- V3.5. -/
theorem test_segNew_region_before_type : (nextOf (exec .segNew { State.reset with srcOff := 250, srcLen := 7 })).map
    (fun t => (t.readReg .errcode, t.readReg .stgLen, t.readReg .status)) = some (0x11, 0, 1) := by decide
/-- V3.10. -/
theorem test_segDecode_recA : (nextOf (exec .segDecode (withBytes 0 recA))).map
    (fun t => (t.stage, t.readReg .errcode)) = some (⟨true, segA⟩, 0) := by decide +kernel
/-- V3.23. -/
theorem test_segDecode_checksum_before_type : (nextOf (exec .segDecode (withBytes 0 (recA.set 4 0x12)))).map
    (fun t => (t.readReg .errcode, t.readReg .status)) = some (4, 1) := by decide +kernel
/-- V3.30. -/
theorem test_segEncode_recA : (nextOf (exec .segEncode staged)).map
    (fun t => (t.readReg .outLen, t.obuf.map (·.2))) = some (18, recA) := by decide +kernel
/-- V3.35. -/
theorem test_segEncode_keeps_stale_bytes :
    (nextOf (exec .segEncode { State.reset with stage := ⟨true, segE⟩, obuf := Memory.writeBytes [] 0 recA })).map
      (fun t => (t.readReg .outLen, t.obuf.map (·.2))) = some (12, recE ++ [0x65, 0x74, 0xCA, 0xB1, 0xF1, 0xC2]) := by
  decide +kernel
/-- V3.41. -/
theorem test_segRead_second : (nextOf (exec .segRead { stored with index := 1 })).map
    (fun t => (t.readReg .stgLen, t.readReg .stgType, t.readReg .stgCrc)) = some (5, 0x74655874, 0xA3F69134) := by decide
/-- V3.42. -/
theorem test_segRead_past_end : (nextOf (exec .segRead { stored with index := 2 })).map
    (fun t => (t.readReg .stgLen, t.readReg .errcode)) = some (0, 0x13) := by decide
/-- 95_test_vectors section 2.5, the CON_NEW vector. -/
theorem test_conNew : (nextOf (exec .conNew stored)).map
    (fun t => (t.store, t.readReg .errcode)) = some ([], 0) := by decide
/-- V4.1. -/
theorem test_conDecode_img2 : (nextOf (exec .conDecode (withBytes 0 img2))).map
    (fun t => (t.store, t.readReg .errcode)) = some ([segA, segB], 0) := by decide +kernel
/-- V4.21. -/
theorem test_conDecode_record_error_before_capacity :
    (nextOf (exec .conDecode { withBytes 0 (img2 ++ [0x00]) with
      params := { Params.vectors with maxSegments := some 1 } })).map
      (fun t => (t.store, t.readReg .errcode)) = some ([], 5) := by decide +kernel
/-- V4.31. -/
theorem test_conEncode_img2 : (nextOf (exec .conEncode stored)).map
    (fun t => (t.readReg .outLen, t.obuf.map (·.2))) = some (43, img2) := by decide +kernel
/-- V4.33. -/
theorem test_conEncode_overflow :
    (nextOf (exec .conEncode { stored with params := { Params.vectors with obufSize := 42 } })).map
      (fun t => (t.readReg .outLen, t.obuf, t.readReg .errcode)) = some (0, [], 0x15) := by decide +kernel
/-- V4.42. -/
theorem test_conAppend_twice : (nextOf (exec .conAppend { staged with store := [segA] })).map
    (fun t => (t.store, t.readReg .errcode, t.readReg .status)) = some ([segA, segA], 0, 2) := by decide
/-- V4.44. -/
theorem test_conAppend_store_full :
    (nextOf (exec .conAppend { State.reset with
      params := { Params.vectors with storeBytes := some 6 }, store := [segA], stage := ⟨true, segB⟩ })).map
      (fun t => (t.store, t.readReg .errcode)) = some ([segA], 0x14) := by decide
/-- V4.54. -/
theorem test_conRemove_first_only :
    (nextOf (exec .conRemove { State.reset with store := [segA, segA], typeArg := 0x52755374 })).map
      (fun t => (t.store, t.readReg .status)) = some ([segA], 4) := by decide
/-- V4.52. -/
theorem test_conRemove_case_matters :
    (nextOf (exec .conRemove { stored with typeArg := 0x52757374, removed := true })).map
      (fun t => (t.store, t.readReg .status, t.readReg .errcode)) = some ([segA, segB], 0, 0) := by decide

/-! ## The bus, one step a test (95_test_vectors section 2.0) -/

/-- V0.9. -/
theorem test_bus_unaligned_word : (nextOf (step (withAccess (.write32 0x10000002 0x01020304)))).map
    (fun t => (t.ibuf, t.resp, t.faults.busError)) = some ([], .error, true) := by decide
/-- V0.10. -/
theorem test_bus_last_word : (nextOf (step (withAccess (.write32 0x100000FC 0x01020304)))).map
    (fun t => (t.ibuf, t.resp)) = some ([(252, 1), (253, 2), (254, 3), (255, 4)], .done) := by decide
/-- V0.12. -/
theorem test_bus_obuf_read_only : (nextOf (step (withAccess (.write8 0x20000000 0x01)))).map
    (fun t => (t.obuf, t.resp)) = some ([], .error) := by decide
/-- V0.14. -/
theorem test_bus_cmd_reads_zero : (nextOf (step (withAccess (.read32 0x00000000)))).map (·.resp)
    = some (.data 0) := by decide
/-- V5.7. -/
theorem test_step_reserved_bits_illegal : (nextOf (step (withCmd stored 0x00000130))).map
    (fun t => (t.store, t.readReg .errcode, t.resp)) = some ([segA, segB], 0x10, .done) := by decide
/-- V5.10: the error report is not sticky. -/
theorem test_step_clears_error : (nextOf (step (withCmd (State.reset.raise .illegalCommand) 0x00000030))).map
    (fun t => (t.readReg .errcode, t.readReg .status)) = some (0, 0) := by decide
/-- 70_reset R220. -/
theorem test_step_reset : (nextOf (step { stored with
    typeArg := 1, ibuf := [(0, 1)], faults := ⟨true, true⟩, pending := [.reset] })).map
    (fun t => (t.store, t.typeArg, t.ibuf, t.faults)) = some ([], 0, [], ⟨false, false⟩) := by decide
/-- V0.17, the read of SRC_OFF. -/
theorem test_bus_read_src_off : (nextOf (step { withAccess (.read32 0x00000010) with srcOff := 5, typeArg := 9 })).map (·.resp)
    = some (.data 5) := by decide
/-- The address of a host line: the last IBUF address of the widest buffer, and the last address of all. -/
theorem test_busAddress : busAddress (0x10000000 + 0x0FFFFFFF) = 0x1FFFFFFF ∧ busAddress 0xFFFFFFFF = 0xFFFFFFFF := by decide
theorem test_withFetchWord_runs : (nextOf (step (State.withFetchWord stored 32 0x30))).map (·.store) = some [] := by decide
/-- 30_encoding R76 and R77, the lines of P1. -/
theorem test_lines : (pseudoLines (.settype ⟨0x52, 0x75, 0x53, 0x74⟩)).flatMap lineAccesses
      = [.write32 0x0000000C 0x52755374] ∧
    (pseudoLines (.region 6 5)).flatMap lineAccesses = [.write32 0x00000010 6, .write32 0x00000014 5] ∧
    lineAccesses (.ldb 6 [0x68, 0x65]) = [.write8 0x10000006 0x68, .write8 0x10000007 0x65] ∧
    lineAccesses (.rdb 0 2) = [.read8 0x20000000, .read8 0x20000001] ∧
    lineAccesses (.cmd .conNew) = [.write32 0x00000000 0x00000030] := by decide

/-! ## Witnesses: a state and operands that meet the hypotheses of each statement, at the boundaries of each clause -/

/-- The clauses over a source region: just past the end of IBUF, unwritten at the last index, the empty region at the end, and
a full one. They serve every statement that uses `RegionCommand`. -/
theorem witness_region_clauses :
    256 < (249 : Word).toNat + (8 : Word).toNat ∧
    { State.reset with srcOff := 255, srcLen := 1 }.RegionUnwritten ∧
    { State.reset with srcOff := 256, srcLen := 0 }.RegionHolds [] ∧ (withBytes 250 secret).RegionHolds secret := by
  refine ⟨by decide, ⟨0, by decide, by decide⟩, ⟨by decide, by decide, ?_⟩, holds_withBytes (by decide)⟩
  intro k hk
  exact absurd hk (by simp)

theorem witness_CmdWriteRunsItsTableRow :
    (withCmd stored 0x00000031).pending = .access (.write32 0x00000000 0x00000031) :: [] ∧
    ((0x00000031 : Word), Instr.conDecode) ∈ commandTable ∧
    (∀ i, ((0x00000035 : Word), i) ∉ commandTable) ∧ ∀ i, ((0x00000131 : Word), i) ∉ commandTable := by
  refine ⟨rfl, by decide, fun i => ?_, fun i => ?_⟩ <;> cases i <;> decide

theorem witness_StepRunsTheDecodedCommand :
    (withCmd stored 0x00000023).pending = .access (.write32 0x00000000 0x00000023) :: [] ∧
    decode 0x00000023 = some .segRead ∧ decodeTableWord 32 0x23 = some .segRead := ⟨rfl, by decide, by decide⟩

theorem witness_IllegalWordsAreThoseListed :
    (withCmd stored 0x00000100).pending = .access (.write32 0x00000000 0x00000100) :: [] ∧
    (∀ w ∈ ([0x00000100, 0x00000000, 0x00000003, 0x0000000F, 0x00000013, 0x0000001F, 0x00000024, 0x0000002F, 0x00000035,
      0x000000FF] : List Word), IllegalWord w) ∧
    ∀ w ∈ ([0x00000001, 0x00000002, 0x00000010, 0x00000012, 0x00000020, 0x00000023, 0x00000030, 0x00000034] : List Word),
      ¬ IllegalWord w := by
  refine ⟨rfl, fun w hw => ?_, fun w hw => ?_⟩ <;> simp only [List.mem_cons, List.not_mem_nil, or_false] at hw
  · rcases hw with rfl | rfl | rfl | rfl | rfl | rfl | rfl | rfl | rfl | rfl <;> simp [IllegalWord]
  · rcases hw with rfl | rfl | rfl | rfl | rfl | rfl | rfl | rfl <;> simp [IllegalWord]

theorem witness_DecodeAndEncodeAgree : (0xFFFFFFFF : Nat) < 2 ^ 32 ∧ decodeTableWord 32 0x12 = some .crcRaw := by decide

theorem witness_TcFlagsWordLayout :
    { State.reset with tcflags := tcflags ⟨0x52, 0x75, 0x53, 0x74⟩ }.tcflags = tcflags ⟨0x52, 0x75, 0x53, 0x74⟩ := rfl

/-- The ends of the letter ranges, and the bytes just outside them. -/
theorem witness_TcCheckResult :
    lettersOnly (unpack4 0x415A617A).toList = true ∧ lettersOnly (unpack4 0x40757374).toList = false ∧
    lettersOnly (unpack4 0x5B757374).toList = false ∧ lettersOnly (unpack4 0x60757374).toList = false ∧
    lettersOnly (unpack4 0x7B757374).toList = false ∧ lettersOnly (unpack4 0x00000000).toList = false :=
  ⟨by decide, by decide, by decide, by decide, by decide, by decide⟩

theorem witness_TcFromStringResult :
    (withBytes 0 rust).RegionHolds rust ∧ (withBytes 0 (rust ++ [0x58])).RegionHolds (rust ++ [0x58]) ∧
    (withBytes 252 [0x52, 0x75, 0x31, 0x74]).RegionHolds [0x52, 0x75, 0x31, 0x74] :=
  ⟨holds_withBytes (by decide), holds_withBytes (by decide), holds_withBytes (by decide +kernel)⟩

/-- Bit 0 of the last payload byte (V2.25). -/
theorem witness_SegmentChecksumDetectsBitFlip :
    (⟨0x52, 0x75, 0x53, 0x74⟩ : Bytes4).toList ++ secret = (rust ++ secret.dropLast) ++ (0x74 : Byte) :: [] ∧
    (⟨0x52, 0x75, 0x53, 0x74⟩ : Bytes4).toList ++ (secret.dropLast ++ [(0x75 : Byte)])
      = (rust ++ secret.dropLast) ++ ((0x74 : Byte) ^^^ ((1 : Byte) <<< 0)) :: [] := by decide

theorem witness_CrcRawOfTypeAndPayloadIsCrcGen :
    (withBytes 0 (rust ++ secret)).RegionHolds ((⟨0x52, 0x75, 0x53, 0x74⟩ : Bytes4).toList ++ secret) ∧
    (withBytes 0 secret).RegionHolds secret ∧
    { withBytes 0 secret with typeArg := 0x52755374 }.typeArg = pack4 ⟨0x52, 0x75, 0x53, 0x74⟩ ∧
    (∃ v, exec .crcRaw (withBytes 0 (rust ++ secret)) = .next v) ∧
    ∃ w, exec .crcGen { withBytes 0 secret with typeArg := 0x52755374 } = .next w :=
  ⟨holds_withBytes (by decide), holds_withBytes (by decide), by decide, ⟨_, rfl⟩, ⟨_, rfl⟩⟩

theorem witness_RecordEncodingLayout : segA.wf ∧ segE.wf := ⟨segA_wf, segE_wf⟩

theorem witness_RecordParserChecksInOrder :
    parseRecord (enc segA ++ []) .exact = .ok (segA, 18) ∧ parseRecord (enc segA ++ recB) .leading = .ok (segA, 18) :=
  ⟨parseRecord_enc segA_wf [] (.inr rfl), parseRecord_enc segA_wf recB (.inl rfl)⟩

theorem witness_SegNewResult :
    lettersOnly (unpack4 0x52757374).toList = true ∧ lettersOnly (unpack4 0x52753174).toList = false := by decide

/-- No stage; one byte too many; exactly full; and the least record. -/
theorem witness_SegEncodeResult :
    State.reset.stage.valid = false ∧
    ((withObuf staged 17).stage.valid = true ∧
      (withObuf staged 17).params.obufSize < 12 + (withObuf staged 17).stage.seg.len.toNat) ∧
    ((withObuf staged 18).stage.valid = true ∧
      12 + (withObuf staged 18).stage.seg.len.toNat ≤ (withObuf staged 18).params.obufSize ∧
      (withObuf staged 18).params.wf = true) ∧
    (withObuf { staged with stage := ⟨true, segE⟩ } 12).params.wf = true ∧
    12 + segE.len.toNat ≤ (withObuf { staged with stage := ⟨true, segE⟩ } 12).params.obufSize := by decide

theorem witness_SegReadResult :
    stored.store.length ≤ { stored with index := 2 }.index.toNat ∧
    { stored with index := 1 }.index.toNat < stored.store.length ∧
    State.reset.store.length ≤ State.reset.index.toNat := by decide

theorem encode_staged : ∃ t, exec .segEncode staged = .next t ∧ OutputIs t recA := by
  refine ⟨_, rfl, by decide +kernel, ?_⟩
  have h : ∀ k, k < 18 → Memory.read (Memory.writeBytes [] 0 (enc segA)) k = recA[k]? := by decide +kernel
  intro k hk
  exact (h k hk).trans (List.getElem?_eq_getElem hk)

theorem witness_SegmentRoundTrip :
    staged.params.wf = true ∧ staged.stage.valid = true ∧ staged.stage.seg.wf ∧
    12 + staged.stage.seg.len.toNat ≤ staged.params.obufSize ∧
    (∃ t, exec .segEncode staged = .next t ∧ OutputIs t recA) ∧ (withBytes 0x20 recA).RegionHolds recA :=
  ⟨by decide, rfl, segA_wf, by decide, encode_staged, holds_withBytes (by decide)⟩

/-- The first type byte and the last payload byte. -/
theorem witness_FlippedRecordIsChecksumMismatch :
    segA.wf ∧ 4 ≤ 4 ∧ 13 < 8 + segA.payload.length ∧
    (withBytes 0 (recA.set 4 0x12)).RegionHolds ((enc segA).set 4 ((enc segA).getD 4 0 ^^^ ((1 : Byte) <<< 6))) ∧
    (withBytes 0 (recA.set 13 0x75)).RegionHolds ((enc segA).set 13 ((enc segA).getD 13 0 ^^^ ((1 : Byte) <<< 0))) := by
  have e4 : (enc segA).set 4 ((enc segA).getD 4 0 ^^^ ((1 : Byte) <<< 6)) = recA.set 4 0x12 := by decide
  have e13 : (enc segA).set 13 ((enc segA).getD 13 0 ^^^ ((1 : Byte) <<< 0)) = recA.set 13 0x75 := by decide
  rw [e4, e13]
  exact ⟨segA_wf, by decide, by decide, holds_withBytes (by decide), holds_withBytes (by decide)⟩

theorem witness_ResizedRecordIsRejected :
    segA.wf ∧ (withBytes 0 recA.dropLast).RegionHolds (enc segA).dropLast ∧ [(0x00 : Byte)] ≠ [] ∧
    (withBytes 0 (recA ++ [0x00])).RegionHolds (enc segA ++ [0x00]) := by
  have e : enc segA = recA := by decide
  rw [e]
  exact ⟨segA_wf, holds_withBytes (by decide), by decide, holds_withBytes (by decide)⟩

/-- Too short by one; a changed signature byte; no record; two records within, at and past each limit; trailing bytes. -/
theorem witness_ConDecodeResult :
    ((withBytes 0 (img0.take 7)).RegionHolds (img0.take 7) ∧ (img0.take 7).length < 8) ∧
    ((withBytes 0 (img0.set 7 0x0B)).RegionHolds (img0.set 7 0x0B) ∧ 8 ≤ (img0.set 7 0x0B).length ∧
      (img0.set 7 0x0B).take 8 ≠ (withBytes 0 (img0.set 7 0x0B)).params.sig) ∧
    ((withBytes 0 img0).RegionHolds img0 ∧ img0 = imageOf (withBytes 0 img0).params [] ∧ 8 ≤ img0.length ∧
      img0.take 8 = (withBytes 0 img0).params.sig) ∧
    (∀ g ∈ [segA, segB], g.wf) ∧
    (∀ m b, (withLimits (withBytes 0 img2) m b).RegionHolds img2 ∧
      img2 = imageOf (withLimits (withBytes 0 img2) m b).params [segA, segB]) ∧
    (AtMost [segA, segB].length (withLimits (withBytes 0 img2) (some 2) (some 11)).params.maxSegments ∧
      AtMost ([segA, segB].map (·.len.toNat)).sum (withLimits (withBytes 0 img2) (some 2) (some 11)).params.storeBytes) ∧
    (AtMost [segA, segB].length (withBytes 0 img2).params.maxSegments ∧
      AtMost ([segA, segB].map (·.len.toNat)).sum (withBytes 0 img2).params.storeBytes) ∧
    ¬ AtMost [segA, segB].length (withLimits (withBytes 0 img2) (some 1) none).params.maxSegments ∧
    ¬ AtMost ([segA, segB].map (·.len.toNat)).sum (withLimits (withBytes 0 img2) none (some 10)).params.storeBytes ∧
    ((withBytes 0 (img2 ++ [0x00])).RegionHolds (img2 ++ [0x00]) ∧
      img2 ++ [0x00] = imageOf (withBytes 0 (img2 ++ [0x00])).params [segA, segB] ++ [0x00] ∧ [(0x00 : Byte)] ≠ [] ∧
      recordOutcome [0x00] .leading = .error .truncatedInput) := by
  refine ⟨⟨holds_withBytes (by decide), by decide⟩, ⟨holds_withBytes (by decide), by decide, by decide⟩,
    ⟨holds_withBytes (by decide), by decide, by decide, by decide⟩, segAB_wf, fun m b => ⟨?_, ?_⟩, ⟨?_, ?_⟩, ⟨?_, ?_⟩,
    fun h => absurd (h 1 rfl) (by decide), fun h => absurd (h 10 rfl) (by decide),
    ⟨holds_withBytes (by decide), by decide, by decide, rfl⟩⟩
  · have h : (withBytes 0 img2).RegionHolds img2 := holds_withBytes (by decide)
    exact ⟨h.inside, h.length, h.bytes⟩
  · show img2 = imageOf Params.vectors [segA, segB]
    decide
  · intro m hm; cases hm; decide
  · intro m hm; cases hm; decide
  · intro m hm; cases hm
  · intro m hm; cases hm

theorem witness_ConDecodeNeverLengthMismatch :
    ¬ UninitFires .conDecode State.reset ∧ ∃ t, exec .conDecode State.reset = .next t := by
  refine ⟨fun h => ?_, ⟨_, rfl⟩⟩
  obtain ⟨k, hk, -⟩ := h.2.2
  exact absurd hk (by simp [State.reset, State.resetWith])

theorem witness_ConEncodeResult :
    (withObuf stored 42).params.obufSize < (imageOf (withObuf stored 42).params (withObuf stored 42).store).length ∧
    ((imageOf (withObuf stored 43).params (withObuf stored 43).store).length ≤ (withObuf stored 43).params.obufSize ∧
      (withObuf stored 43).params.wf = true) ∧ ∀ g ∈ stored.store, g.wf :=
  ⟨by decide, ⟨by decide, by decide⟩, segAB_wf⟩

/-- STAGE holds teXt/"hello" and STORE RuSt/"secret", so the sums are 2 segments and 11 bytes. -/
def appending (m b : Option Nat) : State := withLimits { State.reset with store := [segA], stage := ⟨true, segB⟩ } m b

theorem appending_within {m b : Option Nat} (hm : AtMost 2 m) (hb : AtMost 11 b) :
    AtMost ((appending m b).store.length + 1) (appending m b).params.maxSegments ∧
    AtMost (((appending m b).store.map (·.payload.length)).sum + (appending m b).stage.seg.len.toNat)
      (appending m b).params.storeBytes := ⟨hm, hb⟩

theorem witness_ConAppendResult :
    State.reset.stage.valid = false ∧ (∀ m b, (appending m b).stage.valid = true) ∧
    ¬ AtMost ((appending (some 1) none).store.length + 1) (appending (some 1) none).params.maxSegments ∧
    ¬ AtMost (((appending none (some 10)).store.map (·.payload.length)).sum + (appending none (some 10)).stage.seg.len.toNat)
      (appending none (some 10)).params.storeBytes ∧
    (AtMost 2 (some 2) ∧ AtMost 11 (some 11)) ∧ AtMost 2 none ∧ AtMost 11 none := by
  refine ⟨rfl, fun _ _ => rfl, fun h => absurd (h 1 rfl) (by decide), fun h => absurd (h 10 rfl) (by decide), ⟨?_, ?_⟩, ?_, ?_⟩
  · intro m hm; cases hm; decide
  · intro m hm; cases hm; decide
  · intro m hm; cases hm
  · intro m hm; cases hm

/-- A match at index 0 and one at index 1 with none before it; no match; and a type argument that is not all letters. -/
theorem witness_ConRemoveResult :
    stored.store[0].type = unpack4 0x52755374 ∧ stored.store[1].type = unpack4 0x74655874 ∧
    stored.store[0].type ≠ unpack4 0x74655874 ∧ (∀ g ∈ stored.store, g.type ≠ unpack4 0x52757374) ∧
    (∀ g ∈ State.reset.store, g.type ≠ unpack4 0x52755374) ∧
    (∀ g ∈ stored.store, g.wf) ∧ lettersOnly (unpack4 0x52753174).toList = false :=
  ⟨by decide, by decide, by decide, by decide, by decide, segAB_wf, by decide⟩

theorem fits_stored : storeFits stored.params stored.store := ⟨rfl, rfl⟩

theorem encode_stored : ∃ t, exec .conEncode stored = .next t ∧ t.err = false ∧ OutputIs t img2 := by
  refine ⟨_, rfl, rfl, by decide +kernel, ?_⟩
  have h : ∀ k, k < 43 → Memory.read (Memory.writeBytes [] 0 (containerImage Params.vectors [segA, segB])) k = img2[k]? := by
    decide +kernel
  intro k hk
  exact (h k hk).trans (List.getElem?_eq_getElem hk)

theorem witness_ContainerRoundTrip :
    stored.params.wf = true ∧ (∀ g ∈ stored.store, g.wf) ∧ storeFits stored.params stored.store ∧
    (imageOf stored.params stored.store).length ≤ stored.params.obufSize ∧
    (∃ t, exec .conEncode stored = .next t ∧ t.err = false ∧ OutputIs t img2) ∧
    (withBytes 0x40 img2).params = stored.params ∧ (withBytes 0x40 img2).RegionHolds img2 :=
  ⟨by decide, segAB_wf, fits_stored, by decide, encode_stored, rfl, holds_withBytes (by decide)⟩

theorem witness_DecodedImageReencodes :
    (withBytes 0 img0).params.wf = true ∧ (withBytes 0 img0).RegionHolds img0 ∧
    ∃ t u, exec .conDecode (withBytes 0 img0) = .next t ∧ t.err = false ∧ exec .conEncode t = .next u ∧ u.err = false :=
  ⟨by decide, holds_withBytes (by decide), _, _, rfl, by decide, rfl, by decide⟩

theorem witness_EncodeDecodeEncodeIsIdempotent :
    stored.params.wf = true ∧ (∀ g ∈ stored.store, g.wf) ∧ storeFits stored.params stored.store ∧
    (withBytes 0 img2).params = stored.params ∧ img2 = imageOf stored.params stored.store ∧
    img2.length ≤ stored.params.obufSize ∧ (withBytes 0 img2).RegionHolds img2 :=
  ⟨by decide, segAB_wf, fits_stored, rfl, by decide, by decide, holds_withBytes (by decide)⟩

theorem witness_RegionCheckComesFirst :
    Instr.conDecode ∈ regionCommands ∧ Instr.tcFromString ∈ regionCommands ∧
    State.reset.params.ibufSize < (0xFFFFFFFF : Word).toNat + (1 : Word).toNat := by decide

/-- It fires at the last byte of IBUF; it does not for an empty region, nor for a command that reads no region. -/
theorem witness_UninitReadIsRecorded :
    UninitFires .crcRaw { State.reset with srcOff := 255, srcLen := 1 } ∧
    ¬ UninitFires .crcRaw { State.reset with srcOff := 256, srcLen := 0 } ∧
    ¬ UninitFires .conNew { State.reset with srcOff := 255, srcLen := 1 } := by
  refine ⟨⟨by decide, by decide, 0, by decide, by decide⟩, fun h => ?_, fun h => absurd h.1 (by decide)⟩
  obtain ⟨k, hk, -⟩ := h.2.2
  exact absurd hk (by simp)

theorem witness_FailingCommandWritesOnlyTheReport :
    ¬ UninitFires .conAppend State.reset ∧ ∃ t, exec .conAppend State.reset = .next t ∧ t.err = true :=
  ⟨fun h => absurd h.1 (by decide), _, rfl, rfl⟩

theorem witness_ErrorCodeNumbers :
    (State.reset.raise .noStage).readReg .errcode = { stored with errcode := some .noStage }.readReg .errcode := by decide

theorem witness_FaultRecordsAreKept :
    (∃ t, step { withCmd stored 0x30 with faults := ⟨true, true⟩ } = .next t) ∧
    { withCmd stored 0x30 with faults := ⟨true, true⟩ }.pending.head? ≠ some .reset := ⟨⟨_, rfl⟩, by decide⟩

/-- The first and the last byte and word of IBUF. -/
theorem witness_HostWriteToIbuf :
    State.reset.params.wf = true ∧ 255 < State.reset.params.ibufSize ∧ 252 % 4 = 0 ∧ 252 + 4 ≤ State.reset.params.ibufSize ∧
    (withAccess (.write8 0x100000FF 0x01)).pending = .access (.write8 (BitVec.ofNat 32 (0x10000000 + 255)) 0x01) :: [] ∧
    (withAccess (.write32 0x10000000 0x01)).pending = .access (.write32 (BitVec.ofNat 32 (0x10000000 + 0)) 0x01) :: [] := by
  decide

theorem witness_HostReadOfBuffers :
    State.reset.params.wf = true ∧ 255 < State.reset.params.obufSize ∧ 252 % 4 = 0 ∧ 252 + 4 ≤ State.reset.params.obufSize ∧
    (withAccess (.read8 0x200000FF)).pending = .access (.read8 (BitVec.ofNat 32 (0x20000000 + 255))) :: [] ∧
    (withAccess (.read32 0x100000FC)).pending = .access (.read32 (BitVec.ofNat 32 (0x10000000 + 252))) :: [] ∧
    Memory.read (withBytes 252 rust).ibuf 255 = some 0x74 ∧ Memory.read (withBytes 252 rust).ibuf 252 = some 0x52 ∧
    Memory.read (withBytes 252 rust).ibuf 253 = some 0x75 ∧ Memory.read (withBytes 252 rust).ibuf 254 = some 0x53 ∧
    Memory.read State.reset.obuf 255 = none ∧
    (withAccess (.otherWidth true 0x200000FF)).pending
      = .access (.otherWidth true (BitVec.ofNat 32 (0x20000000 + 255))) :: [] := by decide

theorem witness_HostAccessToCtrl :
    (withAccess (.read32 0x0000004C)).pending = .access (.read32 (BitVec.ofNat 32 (regOffset .sigLo))) :: [] ∧
    (withAccess (.write32 0x0000001C 1)).pending = .access (.write32 0x0000001C 1) :: [] ∧
    (withCmd stored 0x00000034).pending = .access (.write32 0x00000000 0x00000034) :: [] ∧
    decode 0x00000034 = some .conRemove ∧ (0x000000FF : Word).toNat < 0x100 ∧ (0x0000000E : Word).toNat % 4 ≠ 0 ∧
    (withAccess (.read8 0x000000FF)).pending = .access (.read8 0x000000FF) :: [] := by decide

/-- Each way to be illegal at its boundary, and the legal neighbours. -/
theorem witness_BusErrorsAreThoseListed :
    State.reset.params.wf = true ∧
    (withAccess (.read8 0x10000100)).pending = .access (.read8 0x10000100) :: [] ∧
    (∀ a ∈ [Access.otherWidth false 0x10000000, .read8 0x0000000C, .read8 0x10000100, .read8 0x20000100, .write8 0x20000000 1,
      .write8 0x10000100 1, .read32 0x0000000E, .read32 0x00000050, .read32 0x30000000, .read32 0x10000100,
      .write32 0x00000004 1, .write32 0x00000020 1, .write32 0x0000004C 1, .write32 0x10000002 1, .write32 0x10000100 1,
      .write32 0x20000000 1], IllegalAccess Params.vectors a) ∧
    IllegalAccess { Params.vectors with ibufSize := 255 } (.write32 0x100000FC 1) ∧
    (∀ a ∈ [Access.read8 0x100000FF, .read8 0x200000FF, .write8 0x100000FF 1, .read32 0x0000004C, .read32 0x100000FC,
      .read32 0x200000FC, .write32 0x00000000 1, .write32 0x0000000C 1, .write32 0x0000001C 1, .write32 0x100000FC 1],
      ¬ IllegalAccess Params.vectors a) ∧
    { withAccess (.read8 0x10000000) with faults := ⟨true, false⟩ }.faults.busError = true := by
  refine ⟨by decide, rfl, ?_, ?_, ?_, rfl⟩
  · intro a ha
    simp only [List.mem_cons, List.not_mem_nil, or_false] at ha
    rcases ha with rfl | rfl | rfl | rfl | rfl | rfl | rfl | rfl | rfl | rfl | rfl | rfl | rfl | rfl | rfl | rfl <;>
      simp only [IllegalAccess, InBuffer] <;> decide
  · simp only [IllegalAccess, InBuffer]; decide
  · intro a ha
    simp only [List.mem_cons, List.not_mem_nil, or_false] at ha
    rcases ha with rfl | rfl | rfl | rfl | rfl | rfl | rfl | rfl | rfl | rfl <;>
      simp only [IllegalAccess, InBuffer] <;> decide

theorem witness_WordWriteThenByteRead :
    State.reset.params.wf = true ∧ 252 % 4 = 0 ∧ 3 < 4 ∧ 252 + 4 ≤ State.reset.params.ibufSize ∧
    { State.reset with pending := [.access (.write32 0x100000FC 0x01020304), .access (.read8 0x100000FF)] }.pending
      = .access (.write32 (BitVec.ofNat 32 (0x10000000 + 252)) 0x01020304)
        :: .access (.read8 (BitVec.ofNat 32 (0x10000000 + 252 + 3))) :: [] := by decide

theorem witness_ConstantRegisters :
    State.reset.params.wf = true ∧ State.reset.params.sig = [0x89, 0x50, 0x4E, 0x47, 0x0D, 0x0A, 0x1A, 0x0A] := by decide

theorem witness_RegisterMap :
    (∃ a, (0x00, CtrlReg.cmd, a) ∈ registerMap) ∧ (∃ a, (0x4C, CtrlReg.sigLo, a) ∈ registerMap) ∧
    regAt 0x04 = some .status ∧ (2 % 4 ≠ 0 ∨ 0x4C < 2) ∧ (0x50 % 4 ≠ 0 ∨ 0x4C < 0x50) ∧ stored.store.length < 2 ^ 32 :=
  ⟨⟨.writeOnly, by decide⟩, ⟨.readOnly, by decide⟩, by decide, by decide, by decide, by decide⟩

theorem witness_ResetRegisterValues : ({ Params.vectors with ibufSize := 12, obufSize := 2 ^ 28 } : Params).wf = true := by
  decide

theorem witness_ResetEvent : { stored with pending := [.reset] }.pending = .reset :: [] := rfl

/-- A valid stage, a store of two, and written buffers. -/
def busy : State :=
  { State.reset with
    stage := ⟨true, segA⟩, store := [segA, segB], ibuf := [(255, 0x01)], obuf := [(0, 0x02)], outLen := 1
    pending := [.access (.write32 0x00000000 0x00000032)] }

theorem witness_InvariantAtReset_StepKeepsInvariant :
    Params.vectors.wf = true ∧ busy.Inv ∧ ∃ t, step busy = .next t := by
  refine ⟨by decide, ?_, ⟨_, rfl⟩⟩
  refine ⟨by decide, segA_wf, segAB_wf, ⟨rfl, rfl⟩, ⟨by decide, by decide⟩, ⟨by decide, by decide⟩, ⟨by decide, ?_⟩, rfl⟩
  intro i hi
  have hi : i < 1 := hi
  have : i = 0 := by omega
  subst this
  decide

theorem witness_StepKeepsBuffersCanonical :
    Memory.wf [((3 : Nat), (0x01 : Byte)), (7, 0x00)] ∧ Memory.wf ([] : Memory) ∧
    ∃ t, step { State.reset with ibuf := [(3, 0x01), (7, 0x00)], pending := [.access (.write8 0x10000005 0x02)] } = .next t :=
  ⟨by decide, by decide, _, rfl⟩

theorem witness_ParametersNeverChange : ∃ t, step (withCmd staged 0x00000022) = .next t := ⟨_, rfl⟩

theorem witness_CommandsWriteOnlyTheirRegisters :
    (∃ t, exec .segRead stored = .next t) ∧ Instr.segRead ≠ .tcFromString ∧ Instr.segRead ∉ [Instr.tcCheck, .tcFromString] ∧
    Instr.segRead ∉ [Instr.crcGen, .crcCheck, .crcRaw] ∧ Instr.segRead ∉ [Instr.segEncode, .conEncode] ∧
    Instr.conNew ∉ [Instr.segNew, .segDecode, .segRead] ∧
    Instr.segRead ∉ [Instr.conNew, .conDecode, .conAppend, .conRemove] ∧ Instr.segRead ≠ .conRemove :=
  ⟨⟨_, rfl⟩, by decide, by decide, by decide, by decide, by decide, by decide, by decide⟩

/-- A valid stage is kept; a step that makes it valid; one that changes REMOVED; and one that changes OBUF. -/
theorem witness_StateChangesOnlyByItsEvents :
    staged.stage.valid = true ∧ (withCmd staged 0x00000022).pending.head? ≠ some .reset ∧
    ((withCmd stored 0x00000023).stage.valid = false ∧
      ∃ t, step (withCmd stored 0x00000023) = .next t ∧ t.stage.valid = true) ∧
    (∃ t, step (withCmd { stored with typeArg := 0x52755374 } 0x00000034) = .next t ∧
      t.removed ≠ (withCmd { stored with typeArg := 0x52755374 } 0x00000034).removed) ∧
    (∃ t, step (withCmd staged 0x00000022) = .next t ∧ t.obuf ≠ (withCmd staged 0x00000022).obuf) :=
  ⟨rfl, by decide, ⟨rfl, _, rfl, rfl⟩, ⟨_, rfl, by decide⟩, ⟨_, rfl, by decide⟩⟩

theorem witness_StepIsOneHostEvent :
    State.reset.pending = [] ∧
    { State.reset with pending := [.secondHost (.read8 0)] }.pending = .secondHost (.read8 0) :: [] ∧
    (withAccess (.read8 0x10000000)).pending = .access (.read8 0x10000000) :: [] ∧
    ∀ a, HostEvent.access (.read8 0x10000000) ≠ .secondHost a := ⟨rfl, rfl, rfl, by simp⟩

/-- Reset with the accesses of host lines to come. -/
def withLines (ls : List HostLine) : State := { State.reset with pending := (ls.flatMap lineAccesses).map .access }

theorem withLines_toCome (ls : List HostLine) : (withLines ls).LinesToCome ls [] := (List.append_nil _).symm

/-- Each kind of line and pseudo-instruction, the buffer lines up to the last byte of their buffer. -/
theorem witness_HostLinesDoWhatTheyStandFor :
    (∀ ls ∈ [[HostLine.wr .typeArg 1], [.wr .srcOff 1], [.wr .srcLen 1], [.wr .index 1], [.wr .crcExpect 1], [.wr .status 1],
      [.wr .sigLo 1], [.wr .cmd 0x30], [.wr .cmd 0x35], [.rd .cmd], [.rd .sigLo], [.ldb 254 [0x01, 0x02]], [.rdb 254 2],
      [.cmd .conNew], pseudoLines (.settype ⟨0x52, 0x75, 0x53, 0x74⟩), pseudoLines (.region 6 5),
      pseudoLines (.lds 254 [0x01, 0x02]), pseudoLines (.expect 1), pseudoLines (.index 1)],
      (withLines ls).LinesToCome ls []) ∧
    regAccess .status = .readOnly ∧ regAccess .sigLo = .readOnly ∧ decode 0x30 = some .conNew ∧ decode 0x35 = none ∧
    State.reset.params.wf = true ∧ 254 + [(0x01 : Byte), 0x02].length ≤ State.reset.params.ibufSize ∧
    [(0x01 : Byte), 0x02] ≠ [] ∧ [HostLine.ldb 254 [0x01, 0x02]] = pseudoLines (.lds 254 [0x01, 0x02]) ∧
    254 + 2 ≤ State.reset.params.obufSize ∧ 1 < 2 ∧
    Memory.read { withLines [.rdb 254 2] with obuf := [(255, 0x07)] }.obuf (254 + 1) = some 0x07 :=
  ⟨fun ls _ => withLines_toCome ls, by decide, by decide, by decide, by decide, by decide, by decide, by decide, by decide,
    by decide, by decide, by decide⟩

end Sys2Proof.Tests
end

section
/-! SUPPORT. The big-endian helpers read as numbers (00_scope R8). -/

namespace Sys2Proof.Machine

/-- The bytes of `be32`, as numbers: the most significant first. -/
theorem be32_toNat (v : Word) :
    (be32 v).b0.toNat = v.toNat / 2 ^ 24 ∧ (be32 v).b1.toNat = v.toNat / 2 ^ 16 % 2 ^ 8 ∧
    (be32 v).b2.toNat = v.toNat / 2 ^ 8 % 2 ^ 8 ∧ (be32 v).b3.toNat = v.toNat % 2 ^ 8 := by
  have hv : v.toNat < 2 ^ 32 := v.isLt
  simp only [be32, BitVec.extractLsb'_toNat, Nat.shiftRight_eq_div_pow, Nat.pow_zero, Nat.div_one, and_true]
  exact Nat.mod_eq_of_lt (by omega)

/-- One more byte at the least significant end: the number so far moves up by a byte's weight. -/
theorem toNat_append_byte {n : Nat} (x : BitVec n) (b : Byte) : (x ++ b).toNat = x.toNat * 2 ^ 8 + b.toNat := by
  rw [BitVec.toNat_append, ← Nat.shiftLeft_add_eq_or_of_lt b.isLt, Nat.shiftLeft_eq]

/-- `rdBe32` is the weighted sum of its bytes. -/
theorem rdBe32_toNat (t : Bytes4) :
    (rdBe32 t).toNat = t.b0.toNat * 2 ^ 24 + t.b1.toNat * 2 ^ 16 + t.b2.toNat * 2 ^ 8 + t.b3.toNat := by
  calc (rdBe32 t).toNat
      = ((t.b0.toNat * 2 ^ 8 + t.b1.toNat) * 2 ^ 8 + t.b2.toNat) * 2 ^ 8 + t.b3.toNat := by
        simp only [rdBe32, toNat_append_byte]
    _ = _ := by simp only [Nat.add_mul, Nat.mul_assoc, ← Nat.pow_add, Nat.reduceAdd]

/-- Settles O7: the bytes of `be32` and the sum of `rdBe32` by their numbers; the other two are these by definition. -/
theorem bigEndianHelpers : Obligations.BigEndianHelpers :=
  ⟨be32_toNat, rdBe32_toNat, fun _ => rfl, fun _ => rfl⟩

end Sys2Proof.Machine
end

section
/-! SUPPORT. The STG_ registers as views of STAGE (10_state R35 to R37). -/

namespace Sys2Proof.Machine

@[simp] theorem State.readReg_stgLen (s : State) : s.readReg .stgLen = s.stage.seg.len := rfl
@[simp] theorem State.readReg_stgType (s : State) : s.readReg .stgType = pack4 s.stage.seg.type := rfl
@[simp] theorem State.readReg_stgCrc (s : State) : s.readReg .stgCrc = s.stage.seg.crc := rfl

@[simp] theorem Stage.reset_seg_len : Stage.reset.seg.len = 0 := rfl
@[simp] theorem Stage.reset_seg_crc : Stage.reset.seg.crc = 0 := rfl

/-- The type of the reset STAGE packs to the zero word. -/
@[simp] theorem Stage.pack4_reset_seg_type : pack4 Stage.reset.seg.type = 0 := by decide

/-- Settles O48: the views and the two columns of R22 by definition; the reset values are the views of `Stage.reset`. -/
theorem stageViews : Obligations.StageViews := by
  refine ⟨fun s => ⟨s.readReg_stgLen, s.readReg_stgType, s.readReg_stgCrc⟩, ⟨rfl, rfl, rfl⟩, fun r hr => ?_⟩
  simp only [List.mem_cons, List.not_mem_nil, or_false] at hr
  obtain rfl | rfl | rfl := hr
  · exact ⟨rfl, fun p => by simp only [State.readReg_stgLen, State.resetWith_stage, Stage.reset_seg_len]⟩
  · exact ⟨rfl, fun p => by simp only [State.readReg_stgType, State.resetWith_stage, Stage.pack4_reset_seg_type]⟩
  · exact ⟨rfl, fun p => by simp only [State.readReg_stgCrc, State.resetWith_stage, Stage.reset_seg_crc]⟩

end Sys2Proof.Machine
end

section
/-! SUPPORT. What one host access does at each place of the address map (20_memory R52 to R55). -/

namespace Sys2Proof.Machine

/-- The low 0x100 addresses are CTRL, whatever the parameters are (20_memory R51). -/
theorem targetOf_ctrl (p : Params) {addr : Word} (h : addr.toNat < 0x100) : targetOf p addr = .ctrl addr.toNat :=
  if_pos h

/-- The byte address of a 4-aligned offset from a 4-aligned base is 4-aligned; both buffer bases are. -/
theorem ofNat_add_toNat_mod_four {base i : Nat} (hb : base % 4 = 0) (hi : i % 4 = 0) :
    (BitVec.ofNat 32 (base + i)).toNat % 4 = 0 := by
  rw [BitVec.toNat_ofNat]
  omega

/-! ## IBUF and OBUF -/

theorem access_read8_ibuf {s : State} {i : Nat} (hw : s.params.wf = true) (h : i < s.params.ibufSize) :
    s.access (.read8 (BitVec.ofNat 32 (0x10000000 + i))) = .done (s.readByte s.ibuf i) := by
  simp only [State.access, targetOf_ibuf hw h]

theorem access_read8_obuf {s : State} {i : Nat} (hw : s.params.wf = true) (h : i < s.params.obufSize) :
    s.access (.read8 (BitVec.ofNat 32 (0x20000000 + i))) = .done (s.readByte s.obuf i) := by
  simp only [State.access, targetOf_obuf hw h]

theorem access_read32_ibuf {s : State} {i : Nat} (hw : s.params.wf = true) (h4 : i % 4 = 0)
    (h : i < s.params.ibufSize) :
    s.access (.read32 (BitVec.ofNat 32 (0x10000000 + i))) = .done (s.readWord s.ibuf s.params.ibufSize i) := by
  simp only [State.access, if_pos (ofNat_add_toNat_mod_four (base := 0x10000000) rfl h4), targetOf_ibuf hw h]

theorem access_read32_obuf {s : State} {i : Nat} (hw : s.params.wf = true) (h4 : i % 4 = 0)
    (h : i < s.params.obufSize) :
    s.access (.read32 (BitVec.ofNat 32 (0x20000000 + i))) = .done (s.readWord s.obuf s.params.obufSize i) := by
  simp only [State.access, if_pos (ofNat_add_toNat_mod_four (base := 0x20000000) rfl h4), targetOf_obuf hw h]

theorem access_write8_ibuf {s : State} {i : Nat} (b : Byte) (hw : s.params.wf = true) (h : i < s.params.ibufSize) :
    s.access (.write8 (BitVec.ofNat 32 (0x10000000 + i)) b)
      = .done { s with ibuf := Memory.write s.ibuf i b }.respondDone := by
  simp only [State.access, targetOf_ibuf hw h]

theorem access_write32_ibuf {s : State} {i : Nat} (w : Word) (hw : s.params.wf = true) (h4 : i % 4 = 0)
    (h : i + 4 ≤ s.params.ibufSize) :
    s.access (.write32 (BitVec.ofNat 32 (0x10000000 + i)) w)
      = .done { s with ibuf := Memory.writeBytes s.ibuf i (be32 w).toList }.respondDone := by
  have hi : i < s.params.ibufSize := by omega
  simp only [State.access, if_pos (ofNat_add_toNat_mod_four (base := 0x10000000) rfl h4), targetOf_ibuf hw hi,
    State.writeIbufWord, if_pos h]

/-- The host cannot write OBUF, by no width and at no byte (20_memory R53, R55). -/
theorem access_write_obuf {s : State} {i : Nat} {a : Access} (hw : s.params.wf = true) (h : i < s.params.obufSize)
    (ha : (∃ b, a = .write8 (BitVec.ofNat 32 (0x20000000 + i)) b) ∨
      (∃ w, a = .write32 (BitVec.ofNat 32 (0x20000000 + i)) w) ∨
      a = .otherWidth true (BitVec.ofNat 32 (0x20000000 + i))) : s.access a = .done s.busError := by
  obtain ⟨b, rfl⟩ | ⟨w, rfl⟩ | rfl := ha
  · simp only [State.access, targetOf_obuf hw h]
  · simp only [State.access, targetOf_obuf hw h, ite_self]
  · rfl

/-! ## What a read draws -/

/-- A written byte reads as itself, wherever it stands among the bytes read. -/
theorem Memory.drawBytes_getD {m : Memory} {i n k d : Nat} {b : Byte} (hk : k < n)
    (h : Memory.read m (i + k) = some b) : (Memory.drawBytes m i n d).1.getD k 0 = b := by
  induction n generalizing i k d with
  | zero => omega
  | succ n ih =>
    cases k with
    | zero =>
      have h0 : Memory.read m i = some b := h
      simp only [Memory.drawBytes, Memory.draw, h0, List.getD_cons_zero]
    | succ k =>
      have hs : Memory.read m (i + 1 + k) = some b := by rwa [Nat.add_right_comm]
      simp only [Memory.drawBytes, List.getD_cons_succ, ih (Nat.lt_of_succ_lt_succ hk) hs]

theorem State.readByte_of_written {s : State} {m : Memory} {i : Nat} {b : Byte} (h : Memory.read m i = some b) :
    s.readByte m i = s.respondData (b.setWidth 32) := by
  simp only [State.readByte, Memory.draw, h]

theorem State.readWord_of_written {s : State} {m : Memory} {size i : Nat} {t : Bytes4} (hi : i + 4 ≤ size)
    (h0 : Memory.read m i = some t.b0) (h1 : Memory.read m (i + 1) = some t.b1)
    (h2 : Memory.read m (i + 2) = some t.b2) (h3 : Memory.read m (i + 3) = some t.b3) :
    s.readWord m size i = s.respondData (rdBe32 t) := by
  have hd : Memory.drawBytes m i 4 s.draws = (t.toList, s.draws) :=
    Memory.drawBytes_written m i s.draws t.toList fun
      | 0, _ => h0
      | 1, _ => h1
      | 2, _ => h2
      | 3, _ => h3
  have ht : fourAt t.toList 0 = t := fourAt_append [] [] t
  simp only [State.readWord, if_pos hi, hd, ht]

/-- A word read that fits gives four bytes, each written one in its own lane, and changes only the count of draws. -/
theorem State.readWord_lanes (s : State) (m : Memory) {size i : Nat} (hi : i + 4 ≤ size) :
    ∃ (t : Bytes4) (d : Nat), s.readWord m size i = { s with resp := .data (rdBe32 t), draws := d } ∧
      (∀ b, Memory.read m i = some b → t.b0 = b) ∧ (∀ b, Memory.read m (i + 1) = some b → t.b1 = b) ∧
      (∀ b, Memory.read m (i + 2) = some b → t.b2 = b) ∧ (∀ b, Memory.read m (i + 3) = some b → t.b3 = b) := by
  have lane : ∀ k < 4, ∀ b, Memory.read m (i + k) = some b → (Memory.drawBytes m i 4 s.draws).1.getD k 0 = b :=
    fun _ hk _ hb => Memory.drawBytes_getD hk hb
  exact ⟨fourAt (Memory.drawBytes m i 4 s.draws).1 0, _, if_pos hi, lane 0 (by decide), lane 1 (by decide),
    lane 2 (by decide), lane 3 (by decide)⟩

/-! ## CTRL -/

theorem regAt_regOffset (r : CtrlReg) : regAt (regOffset r) = some r := by
  cases r <;> rfl

/-- A register's address is its offset, inside CTRL and 4-aligned (10_state R22). -/
theorem ofNat_regOffset_toNat (r : CtrlReg) :
    (BitVec.ofNat 32 (regOffset r)).toNat = regOffset r ∧ regOffset r < 0x100 ∧ regOffset r % 4 = 0 := by
  cases r <;> decide

theorem access_read32_reg (s : State) (r : CtrlReg) :
    s.access (.read32 (BitVec.ofNat 32 (regOffset r))) = .done (s.respondData (s.readReg r)) := by
  obtain ⟨haddr, hlt, h4⟩ := ofNat_regOffset_toNat r
  have ht := targetOf_ctrl s.params (haddr.symm ▸ hlt)
  simp only [State.access, ht, haddr, if_pos h4, State.readCtrl, regAt_regOffset]

/-- A word write at a register's address is decided by the register's access right (10_state R22). -/
theorem access_write32_reg (s : State) (r : CtrlReg) (w : Word) :
    s.access (.write32 (BitVec.ofNat 32 (regOffset r)) w) = s.writeCtrl (regOffset r) w := by
  obtain ⟨haddr, hlt, h4⟩ := ofNat_regOffset_toNat r
  have ht := targetOf_ctrl s.params (haddr.symm ▸ hlt)
  simp only [State.access, ht, haddr, if_pos h4]

theorem writeCtrl_readWrite (s : State) {r : CtrlReg} (w : Word) (h : regAccess r = .readWrite) :
    s.writeCtrl (regOffset r) w = .done (s.writeReg r w).respondDone := by
  simp only [State.writeCtrl, regAt_regOffset, h]

theorem writeCtrl_writeOnly (s : State) {r : CtrlReg} (w : Word) (h : regAccess r = .writeOnly) :
    s.writeCtrl (regOffset r) w = .command w s.respondDone := by
  simp only [State.writeCtrl, regAt_regOffset, h]

/-- CTRL takes only 32-bit accesses at multiples of 4 (20_memory R54, R55). -/
theorem access_ctrl_illegal {s : State} {addr : Word} {a : Access} (h : addr.toNat < 0x100)
    (ha : a = .read8 addr ∨ (∃ b, a = .write8 addr b) ∨ (∃ wr, a = .otherWidth wr addr) ∨
      (addr.toNat % 4 ≠ 0 ∧ (a = .read32 addr ∨ ∃ w, a = .write32 addr w))) : s.access a = .done s.busError := by
  obtain rfl | ⟨b, rfl⟩ | ⟨wr, rfl⟩ | ⟨h4, rfl | ⟨w, rfl⟩⟩ := ha
  · simp only [State.access, targetOf_ctrl s.params h]
  · simp only [State.access, targetOf_ctrl s.params h]
  · rfl
  · exact if_neg h4
  · exact if_neg h4

/-! ## The step of an access -/

/-- A step whose access writes an RW register stores the word and answers. -/
theorem step_write_readWrite {s : State} {es : List HostEvent} {r : CtrlReg} {w : Word}
    (hp : s.pending = .access (.write32 (BitVec.ofNat 32 (regOffset r)) w) :: es) (hr : regAccess r = .readWrite) :
    step s = .next ({ s with pending := es }.writeReg r w).respondDone :=
  step_of_done hp ((access_write32_reg _ r w).trans (writeCtrl_readWrite _ w hr))

/-- A step whose access writes a command word to CMD is the command, run from the answered access (10_state R23). -/
theorem step_write_cmd {s : State} {es : List HostEvent} {w : Word} {i : Instr}
    (hp : s.pending = .access (.write32 (BitVec.ofNat 32 (regOffset .cmd)) w) :: es) (hi : decode w = some i) :
    step s = exec i { s with pending := es }.respondDone := by
  rw [step_access hp, runAccess, access_write32_reg, writeCtrl_writeOnly _ w rfl]
  simp only [runCommand, hi]

/-- An 8-bit read of a buffer byte, given that the access is one of `m`. -/
theorem step_readByte {s : State} {es : List HostEvent} {a : Access} {m : Memory} {i : Nat}
    (hp : s.pending = .access a :: es)
    (ha : State.access { s with pending := es } a = .done (State.readByte { s with pending := es } m i)) :
    (∀ b, Memory.read m i = some b → step s = .next { s with pending := es, resp := .data (b.setWidth 32) }) ∧
    (Memory.read m i = none → ∃ (b : Byte) (d : Nat),
      step s = .next { s with pending := es, resp := .data (b.setWidth 32), draws := d }) :=
  ⟨fun _ hb => step_of_done hp (ha.trans (congrArg _ (State.readByte_of_written hb))),
    fun _ => ⟨_, _, step_of_done hp ha⟩⟩

/-- A 32-bit read of four buffer bytes, given that the access is one of `m`. -/
theorem step_readWord {s : State} {es : List HostEvent} {a : Access} {m : Memory} {size i : Nat}
    (hp : s.pending = .access a :: es) (hi : i + 4 ≤ size)
    (ha : State.access { s with pending := es } a = .done (State.readWord { s with pending := es } m size i)) :
    (∀ b0 b1 b2 b3, Memory.read m i = some b0 → Memory.read m (i + 1) = some b1 → Memory.read m (i + 2) = some b2 →
      Memory.read m (i + 3) = some b3 →
      step s = .next { s with pending := es, resp := .data (rdBe32 ⟨b0, b1, b2, b3⟩) }) ∧
    ∃ (b0 b1 b2 b3 : Byte) (d : Nat),
      step s = .next { s with pending := es, resp := .data (rdBe32 ⟨b0, b1, b2, b3⟩), draws := d } ∧
      (∀ b, Memory.read m i = some b → b0 = b) ∧ (∀ b, Memory.read m (i + 1) = some b → b1 = b) ∧
      (∀ b, Memory.read m (i + 2) = some b → b2 = b) ∧ (∀ b, Memory.read m (i + 3) = some b → b3 = b) := by
  refine ⟨fun b0 b1 b2 b3 h0 h1 h2 h3 => ?_, ?_⟩
  · have hr := State.readWord_of_written (s := { s with pending := es }) (t := ⟨b0, b1, b2, b3⟩) hi h0 h1 h2 h3
    exact step_of_done hp (ha.trans (congrArg _ hr))
  · obtain ⟨t, d, hr, hlanes⟩ := State.readWord_lanes { s with pending := es } m hi
    exact ⟨t.b0, t.b1, t.b2, t.b3, d, step_of_done hp (ha.trans (congrArg _ hr)), hlanes⟩

end Sys2Proof.Machine
end

section
/-! SUPPORT. The statements of 20_memory R52 to R54, from the accesses above. -/

namespace Sys2Proof.Machine

/-- Byte `k` of a word in index order is the word's lane for it, the most significant first (20_memory R58). -/
theorem be32_toList_getElem? (w : Word) {k : Nat} (h : k < 4) :
    (be32 w).toList[k]? = some (w.extractLsb' (8 * (3 - k)) 8) := by
  match k, h with
  | 0, _ | 1, _ | 2, _ | 3, _ => rfl

/-- What a word written big-endian leaves: its four lanes, and every other byte as before. -/
theorem Memory.read_writeBytes_be32 (m : Memory) (i j : Nat) (w : Word) :
    Memory.read (Memory.writeBytes m i (be32 w).toList) j
      = if i ≤ j ∧ j < i + 4 then some (w.extractLsb' (8 * (3 - (j - i))) 8) else Memory.read m j := by
  rw [Memory.read_writeBytes]
  exact ite_congr rfl (fun hj => be32_toList_getElem? w (by omega)) (fun _ => rfl)

/-- Settles O42: the two legal writes, with what a byte write and a big-endian word write leave in a buffer. -/
theorem hostWriteToIbuf : Obligations.HostWriteToIbuf := by
  refine fun s es i hw => ⟨fun b hi hp => ?_, fun w h4 hi hp => ?_⟩
  · refine ⟨_, step_of_done hp (access_write8_ibuf b hw hi), fun j => ?_⟩
    simp only [Memory.read_write, eq_comm]
  · exact ⟨_, step_of_done hp (access_write32_ibuf w hw h4 hi), fun j => Memory.read_writeBytes_be32 s.ibuf i j w⟩

/-- Settles O43: the reads of either buffer are those of its memory, and no write to OBUF is legal. -/
theorem hostReadOfBuffers : Obligations.HostReadOfBuffers := by
  refine ⟨fun useObuf s es i hw => ?_, fun s es i a hw hi ha hp => step_of_done hp (access_write_obuf hw hi ha)⟩
  cases useObuf with
  | false =>
    exact ⟨fun hi hp => step_readByte hp (access_read8_ibuf hw hi),
      fun h4 hi hp => step_readWord hp hi (access_read32_ibuf hw h4 (Nat.lt_of_lt_of_le (by omega) hi))⟩
  | true =>
    exact ⟨fun hi hp => step_readByte hp (access_read8_obuf hw hi),
      fun h4 hi hp => step_readWord hp hi (access_read32_obuf hw h4 (Nat.lt_of_lt_of_le (by omega) hi))⟩

/-- Settles O44: a register's read, the RW registers by their access right, the CMD write, and the illegal accesses. -/
theorem hostAccessToCtrl : Obligations.HostAccessToCtrl := fun _ _ =>
  ⟨fun r hp => step_of_done hp (access_read32_reg _ r),
    fun _ hp => step_write_readWrite (r := .typeArg) hp rfl,
    fun _ hp => step_write_readWrite (r := .srcOff) hp rfl,
    fun _ hp => step_write_readWrite (r := .srcLen) hp rfl,
    fun _ hp => step_write_readWrite (r := .index) hp rfl,
    fun _ hp => step_write_readWrite (r := .crcExpect) hp rfl,
    fun _ _ hp hi => step_write_cmd hp hi,
    fun _ _ hlt hp ha => step_of_done hp (access_ctrl_illegal hlt ha)⟩

end Sys2Proof.Machine
end

section
/-! SUPPORT. The decoder is total: a command word is `encode` of its command, and every other word is illegal
(30_encoding R72, R74, R75). -/

namespace Sys2Proof.Machine

/-- The laws of the family CommandWord, for every command at once. -/
theorem commandWord_statement (i : Instr) : Laws.CommandWord.Statement i :=
  match i with
  | .tcCheck => Laws.CommandWord.tcCheck
  | .tcFromString => Laws.CommandWord.tcFromString
  | .crcGen => Laws.CommandWord.crcGen
  | .crcCheck => Laws.CommandWord.crcCheck
  | .crcRaw => Laws.CommandWord.crcRaw
  | .segNew => Laws.CommandWord.segNew
  | .segDecode => Laws.CommandWord.segDecode
  | .segEncode => Laws.CommandWord.segEncode
  | .segRead => Laws.CommandWord.segRead
  | .conNew => Laws.CommandWord.conNew
  | .conDecode => Laws.CommandWord.conDecode
  | .conEncode => Laws.CommandWord.conEncode
  | .conAppend => Laws.CommandWord.conAppend
  | .conRemove => Laws.CommandWord.conRemove

@[simp] theorem decode_encode (i : Instr) : decode (encode i) = some i :=
  have ⟨_, _, hdecode⟩ := commandWord_statement i
  hdecode

/-- The opcode of a command, with RSVD clear above it, is the command's word. -/
theorem setWidth_eq_encode_of_decodeOp {op : Byte} {i : Instr} (h : decodeOp op = some i) :
    op.setWidth 32 = encode i := by
  unfold decodeOp at h
  split at h <;> cases h <;> rfl

/-- A word with RSVD clear is its opcode (30_encoding R70). -/
theorem setWidth_opcode_of_reservedClear {w : Word} (h : reservedClear w = true) :
    (w.extractLsb' 0 8).setWidth 32 = w := by
  have hhigh : w.toNat / 2 ^ 8 % 2 ^ 24 = 0 := by
    rw [← Nat.shiftRight_eq_div_pow, ← BitVec.extractLsb'_toNat, beq_iff_eq.mp h]
    rfl
  refine BitVec.eq_of_toNat_eq ?_
  simp only [BitVec.toNat_setWidth, BitVec.extractLsb'_toNat, Nat.shiftRight_zero]
  omega

/-- No word has two meanings and no command two words (30_encoding R75). -/
theorem decode_eq_some_iff {w : Word} {i : Instr} : decode w = some i ↔ w = encode i := by
  refine ⟨fun h => ?_, fun h => h ▸ decode_encode i⟩
  unfold decode at h
  split at h
  · rename_i hclear
    rw [← setWidth_opcode_of_reservedClear hclear, setWidth_eq_encode_of_decodeOp h]
  · cases h

theorem decode_eq_none_iff {w : Word} : decode w = none ↔ ∀ i, w ≠ encode i := by
  simp only [Option.eq_none_iff_forall_ne_some, ne_eq, decode_eq_some_iff]

/-- The rows of the opcode map are each command with its word (30_encoding R72). -/
theorem mem_commandTable_iff {w : Word} {i : Instr} : (w, i) ∈ commandTable ↔ w = encode i := by
  cases i <;> simp [commandTable, encode]

theorem not_illegalWord_encode (i : Instr) : ¬ IllegalWord (encode i) := by
  cases i <;> simp [IllegalWord, encode]

/-- Every word is either a row of the opcode map or listed as illegal (30_encoding R75). -/
theorem illegalWord_iff {w : Word} : IllegalWord w ↔ ∀ i, w ≠ encode i := by
  refine ⟨fun h i hi => not_illegalWord_encode i (hi ▸ h), fun h => ?_⟩
  have hrows : ∀ row ∈ commandTable, w.toNat ≠ row.1.toNat := fun row hrow hw =>
    h row.2 (mem_commandTable_iff.mp (BitVec.eq_of_toNat_eq hw ▸ hrow))
  simp only [commandTable, List.forall_mem_cons, BitVec.reduceToNat] at hrows
  unfold IllegalWord
  omega

end Sys2Proof.Machine
end

section
/-! SUPPORT. The statements of 30_encoding R72 to R74, from the totality of the decoder. -/

namespace Sys2Proof.Machine

/-- A step whose access writes to CMD a word of no command is the error report alone (30_encoding R72, R74). -/
theorem step_write_illegal {s : State} {es : List HostEvent} {w : Word}
    (hp : s.pending = .access (.write32 (BitVec.ofNat 32 (regOffset .cmd)) w) :: es) (hw : decode w = none) :
    step s = .next (failedWith { s with pending := es, resp := .done } .illegalCommand) := by
  rw [step_access hp, runAccess, access_write32_reg, writeCtrl_writeOnly _ w rfl]
  simp only [runCommand, hw]
  rfl

/-- Settles O1: a row of the table is what the word decodes to, and a word in no row decodes to nothing. -/
theorem cmdWriteRunsItsTableRow : Obligations.CmdWriteRunsItsTableRow := by
  intro s es w hp
  simp only [mem_commandTable_iff]
  exact ⟨fun i hi => step_write_cmd hp (decode_eq_some_iff.mpr hi),
    fun hno => step_write_illegal hp (decode_eq_none_iff.mpr hno)⟩

/-- Settles O4: a word is listed as illegal just when it is no command's word, and then it decodes to nothing. -/
theorem illegalWordsAreThoseListed : Obligations.IllegalWordsAreThoseListed := by
  have hdecode (w : Word) : decode w = none ↔ IllegalWord w := decode_eq_none_iff.trans illegalWord_iff.symm
  exact ⟨hdecode, rfl, fun _ _ w hp hw => step_write_illegal hp ((hdecode w).mpr hw)⟩

/-- Settles O6: the commands of each family, by their words. -/
theorem highNibbleNamesTheFamily : Obligations.HighNibbleNamesTheFamily :=
  ⟨by decide, by decide, by decide, by decide⟩

end Sys2Proof.Machine
end

section
/-! SUPPORT. The letter test and the 4 bytes of a sequence, as the statements write them (00_scope R8, R11). -/

namespace Sys2Proof.Machine

theorem isLetter_eq_letterByte (b : Byte) : isLetter b = decide (LetterByte b) := by
  simp only [isLetter, BitVec.le_def, BitVec.reduceToNat, Bool.decide_or, Bool.decide_and]

theorem allLetters_eq_lettersOnly (t : Bytes4) : allLetters t = lettersOnly t.toList := by
  simp only [allLetters, lettersOnly, List.all_cons, List.all_nil, Bool.and_true, Bool.and_assoc,
    isLetter_eq_letterByte]

/-- A sequence of exactly 4 bytes is the 4 bytes read from its start. -/
theorem fourAt_zero_toList {r : List Byte} (h : r.length = 4) : (fourAt r 0).toList = r := by
  rw [fourAt_toList r 0 (by omega), List.drop_zero, List.take_of_length_le (by omega)]

/-- The word packed from the 4 bytes at `k` is their big-endian number (20_memory R57). -/
theorem pack4_fourAt (r : List Byte) (k : Nat) : pack4 (fourAt r k) = BitVec.ofNat 32 (numberAt r k) := by
  have hnum : (rdBe32 (fourAt r k)).toNat = numberAt r k := rdBe32_toNat _
  rw [pack4, ← hnum, BitVec.ofNat_toNat, BitVec.setWidth_eq]

end Sys2Proof.Machine
end

section
/-! SUPPORT. The rule of a command over the source region, from what its body answers (60_exceptions R203, R204,
20_memory R65). -/

namespace Sys2Proof.Machine

theorem regionWritten_eq_false_of_unwritten {s : State} (h : s.RegionUnwritten) : s.regionWritten = false := by
  obtain ⟨k, hk, hread⟩ := h
  rw [← Bool.not_eq_true, State.regionWritten, Memory.allWritten_iff]
  intro hall
  simpa [hread] using hall k hk

/-- However a command ends that read an unwritten byte, UninitRead is recorded, if its body leaves the fault set alone. -/
theorem uninitEnd_faults {s : State} {body : State → List Byte → Except ErrorCode State}
    (hfaults : ∀ u bs t, body u bs = .ok t → t.faults = u.faults) :
    (uninitEnd s body).faults = { s.faults with uninitRead := true } := by
  unfold uninitEnd
  split
  · rfl
  · rcases complete_cases (rfl : complete s.recordUninit (body s.recordUninit s.regionDraw.1) = _) with
      ⟨t, hok, hend⟩ | ⟨e, -, hend⟩
    · rw [hend, State.finish_faults, hfaults _ _ t hok, State.recordUninit_faults]
    · rw [hend, State.raise_faults, State.recordUninit_faults]

/-- The rule of a command over the source region, from two facts about its body. -/
theorem regionCommand_of_body {i : Instr} {s : State} {body : State → List Byte → Except ErrorCode State}
    {outcome : List Byte → State} (hexec : exec i s = .next (withRegion s body))
    (hfaults : ∀ u bs t, body u bs = .ok t → t.faults = u.faults)
    (hbody : ∀ bs, complete s (body s bs) = outcome bs) : RegionCommand i s outcome where
  outside h := by rw [hexec, withRegion_outside h]; rfl
  unwritten hin hun t ht := by
    rw [hexec, withRegion_unwritten hin (regionWritten_eq_false_of_unwritten hun), Host.Outcome.next.injEq] at ht
    rw [← ht, uninitEnd_faults hfaults]
  holds bs hbs := by rw [hexec, withRegion_of_holds hbs, hbody]

end Sys2Proof.Machine
end

section
/-! SUPPORT. The TypeCode family: the flags word and the results of its two commands (40_typecode R102 to R111). -/

namespace Sys2Proof.Machine

@[simp] theorem State.readReg_tcflags (s : State) : s.readReg .tcflags = s.tcflags.setWidth 32 := rfl

/-- The flags word, bit by bit (40_typecode R111). -/
theorem tcflags_getLsbD (t : Bytes4) (k : Nat) : (tcflags t).getLsbD k =
    [critical t, isPublic t, reservedValid t, safeToCopy t, validType t].getD k false := by
  match k with
  | 0 | 1 | 2 | 3 | 4 =>
    simp only [tcflags, BitVec.getLsbD_append]
    simp
  | k + 5 => exact BitVec.getLsbD_of_ge _ _ (by omega)

/-- What the host reads of the flags word is its five bits and zeros (10_state R31). -/
theorem readReg_tcflags_getLsbD (s : State) (k : Nat) : (s.readReg .tcflags).getLsbD k = s.tcflags.getLsbD k := by
  rw [State.readReg_tcflags, BitVec.getLsbD_setWidth, Bool.and_eq_right_iff_imp]
  intro hk
  exact decide_eq_true (Nat.lt_trans (BitVec.lt_of_getLsbD hk) (by decide))

/-- 40_typecode R106. -/
theorem validType_iff (t : Bytes4) :
    validType t = true ↔ lettersOnly t.toList = true ∧ t.b2.getLsbD 5 = false := by
  rw [validType, reservedValid, Bool.and_eq_true, Bool.not_eq_true', allLetters_eq_lettersOnly]

/-- Settles O8: each bit of the word is the property that the layout names. -/
theorem tcFlagsWordLayout : Obligations.TcFlagsWordLayout := by
  intro s t hflags
  simp only [readReg_tcflags_getLsbD, hflags, tcflags_getLsbD]
  refine ⟨rfl, rfl, rfl, rfl, validType_iff t, fun k hk => ?_⟩
  rw [List.getD_eq_getElem?_getD, List.getElem?_eq_none hk, Option.getD_none]

/-- What TC_CHECK ends in, by the letter test (40_typecode R107). -/
theorem exec_tcCheck (s : State) : exec .tcCheck s = .next
    (if lettersOnly s.typeOperand.toList then succeeded { s with tcflags := tcflags s.typeOperand }
      else failedWith s .typeCodeError) := by
  simp only [exec, execTcCheck, tcCheckBody, allLetters_eq_lettersOnly]
  split <;> rfl

/-- Settles O9: the two branches of the letter test. -/
theorem tcCheckResult : Obligations.TcCheckResult := by
  refine ⟨rfl, fun s => ⟨fun hletters => ?_, fun hletters => ?_⟩⟩
  · rw [exec_tcCheck, State.typeOperand, hletters, if_pos rfl]
  · rw [exec_tcCheck, State.typeOperand, hletters, if_neg Bool.false_ne_true]

theorem tcFromStringBody_faults {u t : State} {bs : List Byte} (h : tcFromStringBody u bs = .ok t) :
    t.faults = u.faults := by
  unfold tcFromStringBody at h
  split at h
  · split at h
    · cases h; rfl
    · cases h
  · cases h

/-- TC_FROM_STRING accepts exactly 4 letters (40_typecode R108). -/
theorem tcFromStringBody_eq (s : State) (bs : List Byte) : tcFromStringBody s bs =
    if bs.length = 4 ∧ lettersOnly bs = true then
      .ok { s with typeArg := BitVec.ofNat 32 (numberAt bs 0), tcflags := tcflags (fourAt bs 0) }
    else .error .formatError := by
  unfold tcFromStringBody
  by_cases hlen : bs.length = 4
  · simp only [hlen, allLetters_eq_lettersOnly, fourAt_zero_toList hlen, pack4_fourAt, true_and, if_true]
  · simp only [hlen, false_and, if_false]

/-- Settles O10: the rule of a region command, with a body that tests the length and the letters. -/
theorem tcFromStringResult : Obligations.TcFromStringResult := by
  refine ⟨rfl, fun s => regionCommand_of_body rfl (fun _ _ _ => tcFromStringBody_faults) fun bs => ?_⟩
  rw [tcFromStringBody_eq]
  split <;> rfl

end Sys2Proof.Machine
end

section
/-! SUPPORT. The CRC family: the results of CRC_GEN and CRC_CHECK (41_crc R125, R126). -/

namespace Sys2Proof.Machine

theorem crcGenBody_faults {u t : State} {p : List Byte} (h : crcGenBody u p = .ok t) : t.faults = u.faults := by
  cases h; rfl

/-- Settles O14: the rule of a region command, with a body that cannot fail. -/
theorem crcGenResult : Obligations.CrcGenResult :=
  ⟨rfl, fun _ => regionCommand_of_body rfl (fun _ _ _ => crcGenBody_faults) fun _ => rfl⟩

theorem crcCheckBody_faults {u t : State} {p : List Byte} (h : crcCheckBody u p = .ok t) : t.faults = u.faults := by
  unfold crcCheckBody at h
  split at h <;> cases h
  rfl

/-- CRC_CHECK accepts exactly the checksum that CRC_EXPECT holds (41_crc R126). -/
theorem crcCheckBody_eq (s : State) (p : List Byte) : crcCheckBody s p =
    if crc32 ((unpack4 s.typeArg).toList ++ p) = s.crcExpect then .ok { s with crcResult := s.crcExpect }
    else .error .checksumMismatch := by
  unfold crcCheckBody segCrc State.typeOperand
  split
  · rename_i heq
    rw [heq]
  · rfl

/-- Settles O15: the rule of a region command, with a body that compares the checksum with CRC_EXPECT. -/
theorem crcCheckResult : Obligations.CrcCheckResult := by
  refine ⟨rfl, fun s => regionCommand_of_body rfl (fun _ _ _ => crcCheckBody_faults) fun p => ?_⟩
  rw [crcCheckBody_eq]
  split <;> rfl

end Sys2Proof.Machine
end

section
/-! SUPPORT. The record's layout, and the record parser in the words of the statements (42_segment R141, R142). -/

namespace Sys2Proof.Machine

/-- The length of a well-formed segment's record, by its `len` field (42_segment R141). -/
theorem enc_length_of_wf {g : Segment} (h : g.wf) : (enc g).length = 12 + g.len.toNat := by
  rw [enc_length, h.lenIsPayloadLength]

/-- Settles O18: the layout is the definition of `enc`, and `len` is the payload's length. -/
theorem recordEncodingLayout : Obligations.RecordEncodingLayout := by
  refine fun g hg => ⟨rfl, ?_⟩
  rw [enc_length_of_wf hg]
  omega

theorem recordLen_eq_numberAt (r : List Byte) : recordLen r = numberAt r 0 := rdBe32_toNat _

/-- The fields of a record, by their numbers and slices. -/
theorem recordSegment_eq (r : List Byte) : recordSegment r =
    ⟨BitVec.ofNat 32 (numberAt r 0), ⟨r.getD 4 0, r.getD 5 0, r.getD 6 0, r.getD 7 0⟩,
      (r.drop 8).take (numberAt r 0), BitVec.ofNat 32 (numberAt r (8 + numberAt r 0))⟩ := by
  simp only [recordSegment, recordPayload, recordLen_eq_numberAt, ← pack4_fourAt, pack4, fourAt]

/-- Check (d): the words are equal just when their numbers are. -/
theorem recordSegment_crc_iff {r : List Byte} (h : 8 ≤ r.length) :
    segCrc (recordSegment r).type (recordSegment r).payload = (recordSegment r).crc ↔
      (crc32 ((r.drop 4).take 4 ++ (r.drop 8).take (numberAt r 0))).toNat = numberAt r (8 + numberAt r 0) := by
  have hnum (k : Nat) : (rdBe32 (fourAt r k)).toNat = numberAt r k := rdBe32_toNat _
  simp only [segCrc, recordSegment, recordPayload, fourAt_toList r 4 h, recordLen_eq_numberAt,
    BitVec.toNat_eq, hnum]

/-- Check (e): the type code's letters are those of the slice `[4, 8)`. -/
theorem allLetters_recordSegment_type {r : List Byte} (h : 8 ≤ r.length) :
    allLetters (recordSegment r).type = lettersOnly ((r.drop 4).take 4) := by
  rw [allLetters_eq_lettersOnly, recordSegment, fourAt_toList r 4 h]

/-- `parse_record` is the text of 42_segment R142: checks (a) to (c) are the same tests, and past them the record has the
8 bytes that checks (d) and (e) read. -/
theorem parseRecord_eq_recordOutcome (r : List Byte) (mode : ParseMode) :
    parseRecord r mode = recordOutcome r mode := by
  simp only [parseRecord, recordOutcome, recordLen_eq_numberAt]
  refine ite_congr rfl (fun _ => rfl) fun hlen => ite_congr rfl (fun _ => rfl) fun _ =>
    ite_congr rfl (fun _ => rfl) fun _ => ?_
  have h8 : 8 ≤ r.length := by omega
  rw [ite_not, allLetters_recordSegment_type h8]
  refine ite_congr (propext (recordSegment_crc_iff h8)) (fun _ => ?_) fun _ => rfl
  rw [recordSegment_eq]
  cases lettersOnly ((r.drop 4).take 4) <;> rfl

/-- Settles O19: the parser is the rule's text, and what parses is well-formed. -/
theorem recordParserChecksInOrder : Obligations.RecordParserChecksInOrder := by
  refine fun r mode => ⟨parseRecord_eq_recordOutcome r mode, fun g k hok => ?_⟩
  obtain ⟨hwf, -⟩ := parseRecord_ok hok
  exact hwf

end Sys2Proof.Machine
end

section
/-! SUPPORT. The Segment family: the results of its four commands (42_segment R143, R146, R150, R152). -/

namespace Sys2Proof.Machine

theorem segNewBody_faults {u t : State} {p : List Byte} (h : segNewBody u p = .ok t) : t.faults = u.faults := by
  unfold segNewBody at h
  split at h <;> cases h
  rfl

/-- SEG_NEW stages the region under TYPE_ARG's type code, if that is four letters (42_segment R143). -/
theorem segNewBody_eq (s : State) (p : List Byte) : segNewBody s p =
    if lettersOnly (unpack4 s.typeArg).toList then
      .ok { s with
        stage := ⟨true, ⟨s.srcLen, unpack4 s.typeArg, p, crc32 ((unpack4 s.typeArg).toList ++ p)⟩⟩ }
    else .error .typeCodeError := by
  rw [segNewBody, allLetters_eq_lettersOnly]
  rfl

/-- Settles O20: the rule of a region command, in each branch of the letter test. -/
theorem segNewResult : Obligations.SegNewResult := by
  refine ⟨rfl, fun s => ⟨fun hletters => ?_, fun hletters => ?_⟩⟩ <;>
    refine regionCommand_of_body rfl (fun _ _ _ => segNewBody_faults) fun p => ?_
  · rw [segNewBody_eq, hletters, if_pos rfl]; rfl
  · rw [segNewBody_eq, hletters, if_neg Bool.false_ne_true]; rfl

theorem segDecodeBody_faults {u t : State} {r : List Byte} (h : segDecodeBody u r = .ok t) : t.faults = u.faults := by
  unfold segDecodeBody at h
  split at h <;> cases h
  rfl

/-- Settles O21: the rule of a region command, with a body that answers as the record parser does. -/
theorem segDecodeResult : Obligations.SegDecodeResult := by
  refine ⟨rfl, fun s => regionCommand_of_body rfl (fun _ _ _ => segDecodeBody_faults) fun bs => ?_⟩
  rw [segDecodeBody, parseRecord_eq_recordOutcome]
  cases recordOutcome bs .exact <;> rfl

/-- A block write at offset 0 leaves its bytes where it has one, and every other byte as before. -/
theorem Memory.read_writeBytes_zero (m : Memory) (bs : List Byte) (i : Nat) :
    Memory.read (Memory.writeBytes m 0 bs) i = (bs[i]?).or (Memory.read m i) := by
  rw [Memory.read_writeBytes, Nat.zero_add, Nat.sub_zero]
  by_cases hi : i < bs.length
  · rw [if_pos ⟨Nat.zero_le i, hi⟩, List.getElem?_eq_getElem hi, Option.some_or]
  · rw [if_neg (fun h => hi h.2), List.getElem?_eq_none (Nat.le_of_not_lt hi), Option.none_or]

/-- A number below 2^32 is stored unchanged (00_scope R12). -/
theorem regOfNat_of_lt {n : Nat} (h : n < 2 ^ 32) : regOfNat n = BitVec.ofNat 32 n := if_pos h

/-- What SEG_ENCODE ends in, by the stage and the size test (42_segment R150). -/
theorem exec_segEncode (s : State) : exec .segEncode s = .next
    (if s.stage.valid then
      if 12 + s.stage.seg.len.toNat ≤ s.params.obufSize then
        succeeded { s with
          obuf := Memory.writeBytes s.obuf 0 (enc s.stage.seg), outLen := regOfNat (12 + s.stage.seg.len.toNat) }
      else failedWith s .outputOverflow
    else failedWith s .noStage) := by
  simp only [exec, execSegEncode, segEncodeBody]
  split
  · split <;> rfl
  · rfl

/-- Settles O22: the branches of `exec_segEncode`; a record that fits a legal OBUF has a length below 2^32. -/
theorem segEncodeResult : Obligations.SegEncodeResult := by
  refine ⟨rfl, fun s => ⟨fun hinvalid => ?_, fun hvalid hover => ?_, fun hvalid hfits hparams => ?_⟩⟩
  · rw [exec_segEncode, hinvalid, if_neg Bool.false_ne_true]
  · rw [exec_segEncode, if_pos hvalid, if_neg (Nat.not_le_of_lt hover)]
  · obtain ⟨-, -, -, hobuf⟩ := params_sizes hparams
    refine ⟨Memory.writeBytes s.obuf 0 (enc s.stage.seg), ?_, Memory.read_writeBytes_zero s.obuf _⟩
    rw [exec_segEncode, if_pos hvalid, if_pos hfits, regOfNat_of_lt (by omega)]

/-- Settles O23: STORE has a segment at INDEX just when INDEX is below its length. -/
theorem segReadResult : Obligations.SegReadResult := by
  refine ⟨rfl, fun s => ⟨fun hpast => ?_, fun hin => ?_⟩⟩
  · simp only [exec, execSegRead, segReadBody, List.getElem?_eq_none hpast]
    rfl
  · simp only [exec, execSegRead, segReadBody, List.getElem?_eq_getElem hin]
    rfl

end Sys2Proof.Machine
end

section
/-! SUPPORT. The container image, the two store limits and the record loop in the words of the statements (43_container
R170, R172). -/

namespace Sys2Proof.Machine

theorem encAll_eq_flatten (gs : List Segment) : encAll gs = (gs.map enc).flatten := by
  induction gs with
  | nil => rfl
  | cons g gs ih => rw [encAll, ih, List.map_cons, List.flatten_cons]

theorem containerImage_eq_imageOf (p : Params) (gs : List Segment) : containerImage p gs = imageOf p gs := by
  rw [containerImage, imageOf, encAll_eq_flatten]

/-- The image's length: 8 signature bytes and each record's 12 + len (43_container R174). -/
theorem imageOf_length_of_wf (p : Params) {gs : List Segment} (h : ∀ g ∈ gs, g.wf) :
    (imageOf p gs).length = 8 + (gs.map fun g => 12 + g.len.toNat).sum := by
  have hlens : gs.map (fun g => (enc g).length) = gs.map fun g => 12 + g.len.toNat :=
    List.map_congr_left fun g hg => enc_length_of_wf (h g hg)
  rw [imageOf, List.length_append, List.length_flatten, List.map_map, Function.comp_def, hlens]
  rfl

theorem lenSum_eq_sum (gs : List Segment) : lenSum gs = (gs.map (·.len.toNat)).sum := by
  induction gs with
  | nil => rfl
  | cons g gs ih => rw [lenSum, ih, List.map_cons, List.sum_cons]

theorem storeBytesOf_eq_sum (gs : List Segment) : storeBytesOf gs = (gs.map (·.payload.length)).sum := by
  induction gs with
  | nil => rfl
  | cons g gs ih => rw [storeBytesOf, ih, List.map_cons, List.sum_cons]

theorem withinLimit_iff_atMost (n : Nat) (limit : Option Nat) : withinLimit n limit = true ↔ AtMost n limit := by
  cases limit with
  | none => simp [withinLimit, AtMost]
  | some m => simp [withinLimit, AtMost]

theorem decodedFits_iff (p : Params) (gs : List Segment) : decodedFits p gs = true ↔
    AtMost gs.length p.maxSegments ∧ AtMost (gs.map (·.len.toNat)).sum p.storeBytes := by
  rw [decodedFits, Bool.and_eq_true, withinLimit_iff_atMost, withinLimit_iff_atMost, lenSum_eq_sum]

theorem appendFits_iff (s : State) : appendFits s = true ↔
    AtMost (s.store.length + 1) s.params.maxSegments ∧
      AtMost ((s.store.map (·.payload.length)).sum + s.stage.seg.len.toNat) s.params.storeBytes := by
  rw [appendFits, Bool.and_eq_true, withinLimit_iff_atMost, withinLimit_iff_atMost, storeBytesOf_eq_sum]

/-- The loop over well-formed records and then `rest` answers as it does on `rest`, with the records in front. -/
theorem parseRecords_encAll_append {gs : List Segment} (h : ∀ g ∈ gs, g.wf) (rest : List Byte) :
    parseRecords (encAll gs ++ rest) = (parseRecords rest).map (gs ++ ·) := by
  induction gs with
  | nil => cases hrest : parseRecords rest <;> simp [encAll, Except.map, hrest]
  | cons g gs ih =>
    obtain ⟨hg, hgs⟩ := List.forall_mem_cons.mp h
    rw [encAll, List.append_assoc, parseRecords_enc_append hg, ih hgs]
    cases parseRecords rest <;> rfl

/-- Encoded records parse back to their segments. -/
theorem parseRecords_encAll {gs : List Segment} (h : ∀ g ∈ gs, g.wf) : parseRecords (encAll gs) = .ok gs := by
  have hloop := parseRecords_encAll_append h []
  rwa [List.append_nil, parseRecords_nil, Except.map, List.append_nil] at hloop

/-- The loop reports the error of a record that fails its checks. -/
theorem parseRecords_error {r : List Byte} {e : ErrorCode} (hr : r ≠ [])
    (h : recordOutcome r .leading = .error e) : parseRecords r = .error e := by
  rw [parseRecords_step hr, parseRecord_eq_recordOutcome, h]

/-- Every byte sequence is the records of well-formed segments up to its end or up to bytes whose record checks fail: a
record that parses is taken off the front, and the rest is shorter. -/
theorem exists_encAll_append (r : List Byte) : ∃ (gs : List Segment) (rest : List Byte), (∀ g ∈ gs, g.wf) ∧
    r = encAll gs ++ rest ∧ (rest = [] ∨ ∃ e, recordOutcome rest .leading = .error e) := by
  cases hparse : parseRecord r .leading with
  | error e => exact ⟨[], r, by simp, rfl, .inr ⟨e, parseRecord_eq_recordOutcome r .leading ▸ hparse⟩⟩
  | ok x =>
    obtain ⟨g, k⟩ := x
    obtain ⟨hg, hk, hbytes, -⟩ := parseRecord_ok hparse
    have hshorter : (r.drop k).length < r.length := by
      have hlen := congrArg List.length hbytes
      rw [List.length_append, enc_length] at hlen
      omega
    obtain ⟨gs, rest, hgs, hrest, hend⟩ := exists_encAll_append (r.drop k)
    refine ⟨g :: gs, rest, List.forall_mem_cons.mpr ⟨hg, hgs⟩, ?_, hend⟩
    rw [encAll, List.append_assoc, ← hrest]
    exact hbytes
termination_by r.length

end Sys2Proof.Machine
end

section
/-! SUPPORT. CON_DECODE: its answer in each case of the rule (43_container R172). -/

namespace Sys2Proof.Machine

theorem conDecodeBody_faults {u t : State} {r : List Byte} (h : conDecodeBody u r = .ok t) : t.faults = u.faults := by
  unfold conDecodeBody at h
  split at h
  · cases h
  split at h
  case isFalse => cases h
  split at h
  · cases h
  split at h <;> cases h
  rfl

theorem conDecodeBody_short (s : State) {r : List Byte} (h : r.length < 8) :
    conDecodeBody s r = .error .truncatedInput := if_pos h

theorem conDecodeBody_wrongSignature {s : State} {r : List Byte} (h : 8 ≤ r.length) (hsig : r.take 8 ≠ s.params.sig) :
    conDecodeBody s r = .error .signatureMismatch := by
  rw [conDecodeBody, if_neg (Nat.not_lt.mpr h), if_neg hsig]

/-- After the signature of the block the record loop and then the two limits decide. -/
theorem conDecodeBody_sig_append (s : State) (r : List Byte) :
    conDecodeBody s (s.params.sig ++ r) = (parseRecords r).bind fun gs =>
      if decodedFits s.params gs then .ok { s with store := gs } else .error .capacityExceeded := by
  have hlen : s.params.sig.length = 8 := rfl
  rw [conDecodeBody, if_neg (by simp), if_pos (List.take_left' hlen), List.drop_left' hlen]
  cases parseRecords r <;> rfl

/-- On an image of well-formed segments the two limits decide. -/
theorem conDecodeBody_imageOf (s : State) {gs : List Segment} (h : ∀ g ∈ gs, g.wf) :
    conDecodeBody s (imageOf s.params gs) =
      if decodedFits s.params gs then .ok { s with store := gs } else .error .capacityExceeded := by
  rw [imageOf, ← encAll_eq_flatten, conDecodeBody_sig_append, parseRecords_encAll h]
  rfl

/-- An image and then bytes whose record checks fail: that record's error, whatever the limits are. -/
theorem conDecodeBody_imageOf_append_error (s : State) {gs : List Segment} {rest : List Byte} {e : ErrorCode}
    (h : ∀ g ∈ gs, g.wf) (hrest : rest ≠ []) (he : recordOutcome rest .leading = .error e) :
    conDecodeBody s (imageOf s.params gs ++ rest) = .error e := by
  rw [imageOf, ← encAll_eq_flatten, List.append_assoc, conDecodeBody_sig_append, parseRecords_encAll_append h,
    parseRecords_error hrest he]
  rfl

/-- Bytes that begin with the signature are an image up to their end or up to bytes whose record checks fail. -/
theorem exists_imageOf_append {p : Params} {r : List Byte} (hsig : r.take 8 = p.sig) :
    ∃ (gs : List Segment) (rest : List Byte), (∀ g ∈ gs, g.wf) ∧ r = imageOf p gs ++ rest ∧
      (rest = [] ∨ ∃ e, recordOutcome rest .leading = .error e) := by
  obtain ⟨gs, rest, hwf, hbytes, hend⟩ := exists_encAll_append (r.drop 8)
  refine ⟨gs, rest, hwf, ?_, hend⟩
  rw [imageOf, ← encAll_eq_flatten, List.append_assoc, ← hbytes, ← hsig, List.take_append_drop]

/-- Settles O28: the rule of a region command, with the body's answer in each case. -/
theorem conDecodeResult : Obligations.ConDecodeResult := by
  refine ⟨rfl, fun s => ?_⟩
  obtain ⟨houtside, hunwritten, hholds⟩ : RegionCommand .conDecode s fun bs => complete s (conDecodeBody s bs) :=
    regionCommand_of_body rfl (fun _ _ _ => conDecodeBody_faults) fun _ => rfl
  refine ⟨houtside, hunwritten, fun bs hbs => ?_⟩
  rw [hholds bs hbs]
  refine ⟨fun hshort => ?_, fun hlen hsig => ?_, fun gs hgs himage => ⟨fun hfits => ?_, fun hover => ?_⟩,
    fun gs rest e hgs himage hrest he => ?_, fun _ hsig => exists_imageOf_append hsig⟩
  · rw [conDecodeBody_short s hshort]; rfl
  · rw [conDecodeBody_wrongSignature hlen hsig]; rfl
  · rw [himage, conDecodeBody_imageOf s hgs, if_pos ((decodedFits_iff _ _).mpr hfits)]; rfl
  · rw [himage, conDecodeBody_imageOf s hgs, if_neg (mt (decodedFits_iff _ _).mp hover)]; rfl
  · rw [himage, conDecodeBody_imageOf_append_error s hgs hrest he]; rfl

end Sys2Proof.Machine
end

section
/-! SUPPORT. The other commands of the Container family: CON_NEW, CON_ENCODE, CON_APPEND and CON_REMOVE (43_container R174,
R175, R176, R183). -/

namespace Sys2Proof.Machine

/-- What CON_ENCODE ends in, by the size test (43_container R174). -/
theorem exec_conEncode (s : State) : exec .conEncode s = .next
    (if (imageOf s.params s.store).length ≤ s.params.obufSize then
      succeeded { s with
        obuf := Memory.writeBytes s.obuf 0 (imageOf s.params s.store),
        outLen := regOfNat (imageOf s.params s.store).length }
    else failedWith s .outputOverflow) := by
  simp only [exec, execConEncode, writeOutput, containerImage_eq_imageOf]
  split <;> rfl

/-- Settles O30: the branches of `exec_conEncode`; an image that fits a legal OBUF has a length below 2^32. -/
theorem conEncodeResult : Obligations.ConEncodeResult := by
  refine ⟨rfl, fun s => ⟨fun hover => ?_, fun hfits hparams => ?_, imageOf_length_of_wf s.params⟩⟩
  · rw [exec_conEncode, if_neg (Nat.not_le_of_lt hover)]
  · obtain ⟨-, -, -, hobuf⟩ := params_sizes hparams
    refine ⟨Memory.writeBytes s.obuf 0 (imageOf s.params s.store), ?_, Memory.read_writeBytes_zero s.obuf _⟩
    rw [exec_conEncode, if_pos hfits, regOfNat_of_lt (by omega)]

/-- What CON_APPEND ends in, by the stage and the two limits (43_container R176). -/
theorem exec_conAppend (s : State) : exec .conAppend s = .next
    (if s.stage.valid then
      if appendFits s then succeeded { s with store := s.store ++ [s.stage.seg] } else failedWith s .capacityExceeded
    else failedWith s .noStage) := by
  simp only [exec, execConAppend, conAppendBody]
  split
  · split <;> rfl
  · rfl

/-- Settles O31: the branches of `exec_conAppend`. -/
theorem conAppendResult : Obligations.ConAppendResult := by
  refine ⟨rfl, fun s => ⟨fun hinvalid => ?_, fun hvalid hover => ?_, fun hvalid hfits => ?_⟩⟩
  · rw [exec_conAppend, hinvalid, if_neg Bool.false_ne_true]
  · rw [exec_conAppend, if_pos hvalid, if_neg (mt (appendFits_iff s).mp hover)]
  · rw [exec_conAppend, if_pos hvalid, if_pos ((appendFits_iff s).mpr hfits)]

/-- The model's search is the library's first index that satisfies a test. -/
theorem firstOfType_eq_findIdx? (t : Bytes4) (gs : List Segment) :
    firstOfType t gs = gs.findIdx? fun g => decide (g.type = t) := by
  induction gs with
  | nil => rfl
  | cons g gs ih => simp only [firstOfType, List.findIdx?_cons, ih, decide_eq_true_eq]

theorem exec_conRemove_of_first {s : State} {k : Nat} (h : firstOfType (unpack4 s.typeArg) s.store = some k) :
    exec .conRemove s = .next (succeeded { s with
      store := s.store.take k ++ s.store.drop (k + 1), removed := true }) := by
  simp only [exec, execConRemove, conRemoveBody, State.typeOperand, h]
  rfl

theorem exec_conRemove_of_absent {s : State} (h : ∀ g ∈ s.store, g.type ≠ unpack4 s.typeArg) :
    exec .conRemove s = .next (succeeded { s with removed := false }) := by
  have hnone : firstOfType (unpack4 s.typeArg) s.store = none := by
    rw [firstOfType_eq_findIdx?, List.findIdx?_eq_none_iff]
    exact fun g hg => decide_eq_false (h g hg)
  simp only [exec, execConRemove, conRemoveBody, State.typeOperand, hnone]
  rfl

/-- A well-formed segment has no type that is not all letters (10_state R47). -/
theorem Segment.wf.type_ne {g : Segment} {t : Bytes4} (hg : g.wf) (ht : lettersOnly t.toList = false) : g.type ≠ t := by
  rintro rfl
  rw [← allLetters_eq_lettersOnly, hg.typeIsLetters] at ht
  cases ht

/-- Settles O32: the first index whose type matches, or none; a type argument that is not all letters matches no
well-formed segment. -/
theorem conRemoveResult : Obligations.ConRemoveResult := by
  refine ⟨rfl, fun s => ⟨fun k hk htype hbefore => exec_conRemove_of_first ?_, exec_conRemove_of_absent,
    fun hwf ht => exec_conRemove_of_absent fun g hg => (hwf g hg).type_ne ht⟩⟩
  rw [firstOfType_eq_findIdx?, List.findIdx?_eq_some_iff_getElem]
  exact ⟨hk, decide_eq_true htype, fun j hj => by simpa using hbefore j hj⟩

/-- Settles O27: CON_NEW has no check, so its one outcome is its meaning. -/
theorem conNewResult : Obligations.ConNewResult := ⟨rfl, fun _ => rfl⟩

end Sys2Proof.Machine
end

section
/-! SUPPORT. Which errors the body of a region command can report: none of them is RegionError (42_segment R142,
43_container R172, 60_exceptions R200). -/

namespace Sys2Proof.Machine

/-- The errors of `parse_record`; LengthMismatch is that of EXACT mode only (42_segment R142). -/
theorem recordOutcome_error_mem {r : List Byte} {mode : ParseMode} {e : ErrorCode} (h : recordOutcome r mode = .error e) :
    e ∈ [ErrorCode.truncatedInput, .checksumMismatch, .typeCodeError] ∨ (mode = .exact ∧ e = .lengthMismatch) := by
  unfold recordOutcome at h
  split at h
  · cases h; simp
  split at h
  · cases h; simp
  split at h
  case isTrue hlong => cases h; exact .inr ⟨hlong.1, rfl⟩
  split at h
  · cases h; simp
  split at h <;> cases h
  simp

/-- The errors of CON_DECODE's own checks: the bytes are short, begin with another signature, are an image, or are an image
up to a record that LEADING mode rejects (43_container R172). -/
theorem conDecodeBody_error_mem {s : State} {r : List Byte} {e : ErrorCode} (h : conDecodeBody s r = .error e) :
    e ∈ [ErrorCode.truncatedInput, .signatureMismatch, .checksumMismatch, .typeCodeError, .capacityExceeded] := by
  by_cases hshort : r.length < 8
  · rw [conDecodeBody_short s hshort] at h
    cases h; simp
  by_cases hsig : r.take 8 = s.params.sig
  · obtain ⟨gs, rest, hwf, rfl, hend⟩ := exists_imageOf_append hsig
    by_cases hrest : rest = []
    · rw [hrest, List.append_nil, conDecodeBody_imageOf s hwf] at h
      split at h <;> cases h
      simp
    · obtain ⟨e', he'⟩ := hend.resolve_left hrest
      rw [conDecodeBody_imageOf_append_error s hwf hrest he'] at h
      cases h
      rcases recordOutcome_error_mem he' with hmem | ⟨hmode, -⟩
      · exact (by decide : [ErrorCode.truncatedInput, .checksumMismatch, .typeCodeError] ⊆ _) hmem
      · cases hmode
  · rw [conDecodeBody_wrongSignature (Nat.le_of_not_lt hshort) hsig] at h
    cases h; simp

theorem tcFromStringBody_ne_regionError (s : State) (bs : List Byte) :
    tcFromStringBody s bs ≠ .error .regionError := by
  rw [tcFromStringBody_eq]
  split <;> exact nofun

theorem crcCheckBody_ne_regionError (s : State) (p : List Byte) : crcCheckBody s p ≠ .error .regionError := by
  rw [crcCheckBody_eq]
  split <;> exact nofun

theorem segNewBody_ne_regionError (s : State) (p : List Byte) : segNewBody s p ≠ .error .regionError := by
  rw [segNewBody_eq]
  split <;> exact nofun

theorem segDecodeBody_ne_regionError (s : State) (r : List Byte) : segDecodeBody s r ≠ .error .regionError := by
  rw [segDecodeBody, parseRecord_eq_recordOutcome]
  cases hr : recordOutcome r .exact with
  | ok _ => exact nofun
  | error e =>
    rintro ⟨⟩
    exact absurd (recordOutcome_error_mem hr) (by decide)

theorem conDecodeBody_ne_regionError (s : State) (r : List Byte) : conDecodeBody s r ≠ .error .regionError :=
  fun h => absurd (conDecodeBody_error_mem h) (by decide)

end Sys2Proof.Machine
end

section
/-! SUPPORT. How a command ends, by whether it reads the source region: what the statements of 60_exceptions R201 and R204
say of every command. -/

namespace Sys2Proof.Machine

/-- The seven commands over the source region: `withRegion` with a body that does not report RegionError itself
(60_exceptions R204). -/
theorem exec_of_mem_regionCommands {i : Instr} (hi : i ∈ regionCommands) :
    ∃ body, (∀ s, exec i s = .next (withRegion s body)) ∧ ∀ s bs, body s bs ≠ .error .regionError := by
  simp only [regionCommands, List.mem_cons, List.not_mem_nil, or_false] at hi
  rcases hi with rfl | rfl | rfl | rfl | rfl | rfl | rfl
  · exact ⟨_, fun _ => rfl, tcFromStringBody_ne_regionError⟩
  · exact ⟨crcGenBody, fun _ => rfl, fun _ _ => nofun⟩
  · exact ⟨_, fun _ => rfl, crcCheckBody_ne_regionError⟩
  · exact ⟨crcRawBody, fun _ => rfl, fun _ _ => nofun⟩
  · exact ⟨_, fun _ => rfl, segNewBody_ne_regionError⟩
  · exact ⟨_, fun _ => rfl, segDecodeBody_ne_regionError⟩
  · exact ⟨_, fun _ => rfl, conDecodeBody_ne_regionError⟩

/-- The other seven commands only complete what their own rule answers. -/
theorem exec_of_not_mem_regionCommands {i : Instr} (hi : i ∉ regionCommands) (s : State) :
    ∃ r, exec i s = .next (complete s r) := by
  match i with
  | .tcCheck | .segEncode | .segRead | .conNew | .conEncode | .conAppend | .conRemove => exact ⟨_, rfl⟩
  | .tcFromString | .crcGen | .crcCheck | .crcRaw | .segNew | .segDecode | .conDecode => exact absurd (by decide) hi

theorem regionUnwritten_of_regionWritten_eq_false {s : State} (h : s.regionWritten = false) : s.RegionUnwritten := by
  rw [← Bool.not_eq_true, State.regionWritten, Memory.allWritten_iff] at h
  simpa [State.RegionUnwritten] using h

/-- Where UninitRead does not fire, a command completes its own state: RegionError is one of the errors that may end it. -/
theorem exec_of_not_uninitFires {i : Instr} {s : State} (h : ¬ UninitFires i s) :
    ∃ r, exec i s = .next (complete s r) := by
  by_cases hi : i ∈ regionCommands
  · obtain ⟨body, hexec, -⟩ := exec_of_mem_regionCommands hi
    rw [hexec]
    rcases withRegion_cases (rfl : withRegion s body = _) with ⟨-, hend⟩ | ⟨bs, -, hend⟩ | ⟨hin, hunwritten, -⟩
    · exact ⟨.error .regionError, congrArg _ hend⟩
    · exact ⟨body s bs, congrArg _ hend⟩
    · exact absurd ⟨hi, of_decide_eq_true hin, regionUnwritten_of_regionWritten_eq_false hunwritten⟩ h
  · exact exec_of_not_mem_regionCommands hi s

/-- Settles O36: past the end of IBUF `withRegion` raises before its body runs; on a written region inside IBUF its body
runs, and no body reports RegionError. -/
theorem regionCheckComesFirst : Obligations.RegionCheckComesFirst := by
  intro i hi s
  obtain ⟨body, hexec, hbody⟩ := exec_of_mem_regionCommands hi
  rw [hexec]
  refine ⟨fun houtside => congrArg _ (withRegion_outside houtside body), fun bs hbs => ⟨_, rfl, ?_⟩⟩
  rw [withRegion_of_holds hbs]
  cases hr : body s bs with
  | ok t => exact nofun
  | error e =>
    rintro ⟨⟩
    exact hbody s bs hr

/-- Settles O38: a command that completes its own state with STATUS.ERR set has raised in it. -/
theorem failingCommandWritesOnlyTheReport : Obligations.FailingCommandWritesOnlyTheReport := by
  intro i s t hfires hexec herr
  obtain ⟨r, hr⟩ := exec_of_not_uninitFires hfires
  obtain rfl : complete s r = t := Host.Outcome.next.inj (hr.symm.trans hexec)
  cases r with
  | ok u => cases herr
  | error e => exact ⟨e, rfl⟩

end Sys2Proof.Machine
end

section
/-! SUPPORT. What the computed and the constant registers read (10_state R24, R38, R39), and what every register reads at
reset (70_reset R221). -/

namespace Sys2Proof.Machine

@[simp] theorem State.readReg_status (s : State) : s.readReg .status = s.statusWord := rfl
@[simp] theorem State.readReg_errcode (s : State) : s.readReg .errcode = (errorByte s.errcode).setWidth 32 := rfl
@[simp] theorem State.readReg_segCount (s : State) : s.readReg .segCount = regOfNat s.store.length := rfl
@[simp] theorem State.readReg_id (s : State) : s.readReg .id = 0x43434231 := rfl
@[simp] theorem State.readReg_ibufSize (s : State) : s.readReg .ibufSize = regOfNat s.params.ibufSize := rfl
@[simp] theorem State.readReg_obufSize (s : State) : s.readReg .obufSize = regOfNat s.params.obufSize := rfl
@[simp] theorem State.readReg_sigHi (s : State) : s.readReg .sigHi = pack4 s.params.sigHi := rfl
@[simp] theorem State.readReg_sigLo (s : State) : s.readReg .sigLo = pack4 s.params.sigLo := rfl

/-- With its three flags clear, STATUS is the zero word: the other bits are reserved (10_state R24). -/
theorem State.statusWord_eq_zero {s : State} (herr : s.err = false) (hvalid : s.stage.valid = false)
    (hremoved : s.removed = false) : s.statusWord = 0 := by
  rw [State.statusWord, herr, hvalid, hremoved]
  rfl

/-- Legal buffer sizes fit in a register, so the size registers read them as they are (10_state R39). -/
theorem State.readReg_sizes_toNat {s : State} (h : s.params.wf = true) :
    (s.readReg .ibufSize).toNat = s.params.ibufSize ∧ (s.readReg .obufSize).toNat = s.params.obufSize := by
  obtain ⟨-, hibuf, -, hobuf⟩ := params_sizes h
  rw [State.readReg_ibufSize, State.readReg_obufSize]
  exact ⟨regOfNat_toNat (by omega), regOfNat_toNat (by omega)⟩

/-- The registers that show the block's identity and its parameters (10_state R38, R39). -/
def constantRegisters : List CtrlReg := [.id, .ibufSize, .obufSize, .sigHi, .sigLo]

/-- At reset only the constant registers can read anything but 0. -/
theorem State.readReg_resetWith_eq_zero (p : Params) {r : CtrlReg} (hr : r ∉ constantRegisters) :
    (State.resetWith p).readReg r = 0 := by
  obtain ⟨-, -, hstage⟩ := stageViews
  match r with
  | .cmd | .typeArg | .srcOff | .srcLen | .index | .crcExpect | .crcResult | .outLen => rfl
  | .status => exact (State.readReg_status _).trans (State.statusWord_eq_zero rfl rfl rfl)
  | .errcode => rw [State.readReg_errcode, State.resetWith_errcode]; rfl
  | .tcflags => rw [State.readReg_tcflags, State.resetWith_tcflags]; rfl
  | .segCount => rw [State.readReg_segCount, State.resetWith_store]; rfl
  | .stgLen | .stgType | .stgCrc => exact (hstage _ (by decide)).2 p
  | .id | .ibufSize | .obufSize | .sigHi | .sigLo => exact absurd (by decide) hr

/-- Settles O51: the fifteen registers listed are those that are not constant; the parameters of the reset state are `p`. -/
theorem resetRegisterValues : Obligations.ResetRegisterValues := by
  intro p hp
  obtain ⟨hibuf, hobuf⟩ := State.readReg_sizes_toNat (s := State.resetWith p) hp
  refine ⟨fun r hr => State.readReg_resetWith_eq_zero p ?_, State.readReg_id _, hibuf, hobuf,
    State.readReg_sigHi _, State.readReg_sigLo _⟩
  exact (by decide : ∀ r ∈ _, r ∉ constantRegisters) r hr

end Sys2Proof.Machine
end

section
/-! SUPPORT. The opcode table's numbering reads each 32-bit number as the word it is (30_encoding R75). -/

namespace Sys2Proof.Machine

theorem decodeTableWord_of_lt {n : Nat} (h : n < 2 ^ 32) : decodeTableWord 32 n = decode (BitVec.ofNat 32 n) := by
  have hword : tableWord 32 n = n := Nat.mod_eq_of_lt h
  rw [decodeTableWord, hword, if_pos h]

/-- Settles O5: the decoder and the encoder are inverse on words, and a number below 2^32 is the word of that number. -/
theorem decodeAndEncodeAgree : Obligations.DecodeAndEncodeAgree := by
  refine ⟨fun w i => decode_eq_some_iff, fun n i hn => ?_⟩
  rw [decodeTableWord_of_lt hn, decode_eq_some_iff, BitVec.toNat_eq, BitVec.toNat_ofNat, Nat.mod_eq_of_lt hn]

end Sys2Proof.Machine
end

section
/-! SUPPORT. What each command may write, said once for all 14 (10_state R22, the column "written by commands"), and the
three ways a command ends (60_exceptions R201, R202, 20_memory R65). -/

namespace Sys2Proof.Machine

/-- A segment sequence that STORE may hold (10_state R41, R47). -/
def GoodStore (p : Params) (gs : List Segment) : Prop := (∀ g ∈ gs, g.wf) ∧ storeFits p gs

/-- `t` is `s` with the writes that command `i` may collect. What the command owes the invariant is said under the
invariant of `s`. -/
inductive CommandWrites (s : State) : Instr → State → Prop
  | flags (f : BitVec 5) : CommandWrites s .tcCheck { s with tcflags := f }
  | typeCode (w : Word) (f : BitVec 5) : CommandWrites s .tcFromString { s with typeArg := w, tcflags := f }
  | checksum {i : Instr} (hi : i ∈ [Instr.crcGen, .crcCheck, .crcRaw]) (w : Word) :
      CommandWrites s i { s with crcResult := w }
  | stage {i : Instr} (hi : i ∈ [Instr.segNew, .segDecode, .segRead]) (g : Segment) (hg : s.Inv → g.wf) :
      CommandWrites s i { s with stage := stageOf g }
  | output {i : Instr} (hi : i ∈ [Instr.segEncode, .conEncode]) (img : List Byte) (n : Word)
      (himg : s.Inv → img.length ≤ s.params.obufSize ∧ n.toNat = img.length) :
      CommandWrites s i { s with obuf := Memory.writeBytes s.obuf 0 img, outLen := n }
  | store {i : Instr} (hi : i ∈ [Instr.conNew, .conDecode, .conAppend]) (gs : List Segment)
      (hgs : s.Inv → GoodStore s.params gs) : CommandWrites s i { s with store := gs }
  | remove (gs : List Segment) (b : Bool) (hgs : s.Inv → GoodStore s.params gs) :
      CommandWrites s .conRemove { s with store := gs, removed := b }

/-! ## Each command's own rule -/

theorem tcCheckBody_writes {s t : State} (h : tcCheckBody s = .ok t) : CommandWrites s .tcCheck t := by
  unfold tcCheckBody at h
  split at h <;> cases h
  exact .flags _

theorem tcFromStringBody_writes {s t : State} {bs : List Byte} (h : tcFromStringBody s bs = .ok t) :
    CommandWrites s .tcFromString t := by
  rw [tcFromStringBody_eq] at h
  split at h <;> cases h
  exact .typeCode _ _

theorem crcGenBody_writes {s t : State} {p : List Byte} (h : crcGenBody s p = .ok t) : CommandWrites s .crcGen t := by
  cases h
  exact .checksum (by decide) _

theorem crcCheckBody_writes {s t : State} {p : List Byte} (h : crcCheckBody s p = .ok t) :
    CommandWrites s .crcCheck t := by
  rw [crcCheckBody_eq] at h
  split at h <;> cases h
  exact .checksum (by decide) _

theorem crcRawBody_writes {s t : State} {r : List Byte} (h : crcRawBody s r = .ok t) : CommandWrites s .crcRaw t := by
  cases h
  exact .checksum (by decide) _

/-- SEG_NEW's segment is well-formed by construction: SRC_LEN counts the region's bytes (42_segment R143). -/
theorem segNewBody_writes {s t : State} {p : List Byte} (hlen : p.length = s.srcLen.toNat)
    (h : segNewBody s p = .ok t) : CommandWrites s .segNew t := by
  unfold segNewBody at h
  split at h <;> cases h
  rename_i hletters
  exact .stage (by decide) _ fun _ => ⟨hlen.symm, rfl, hletters⟩

theorem segDecodeBody_writes {s t : State} {r : List Byte} (h : segDecodeBody s r = .ok t) :
    CommandWrites s .segDecode t := by
  unfold segDecodeBody at h
  split at h <;> cases h
  rename_i g k hok
  obtain ⟨hwf, -⟩ := parseRecord_ok hok
  exact .stage (by decide) g fun _ => hwf

theorem segReadBody_writes {s t : State} (h : segReadBody s = .ok t) : CommandWrites s .segRead t := by
  unfold segReadBody at h
  split at h <;> cases h
  rename_i g hg
  exact .stage (by decide) g fun hs => hs.store g (List.mem_of_getElem? hg)

theorem Stage.wf.seg_wf {st : Stage} (h : st.wf) (hvalid : st.valid = true) : st.seg.wf := by
  rwa [Stage.wf, if_pos hvalid] at h

/-- What fits a legal OBUF has a length that OUT_LEN holds unchanged. -/
theorem regOfNat_toNat_of_fits {p : Params} (hp : p.wf = true) {n : Nat} (h : n ≤ p.obufSize) :
    (regOfNat n).toNat = n := by
  obtain ⟨-, -, -, hobuf⟩ := params_sizes hp
  exact regOfNat_toNat (by omega)

theorem segEncodeBody_writes {s t : State} (h : segEncodeBody s = .ok t) : CommandWrites s .segEncode t := by
  unfold segEncodeBody at h
  split at h
  case isFalse => cases h
  rename_i hvalid
  split at h <;> cases h
  rename_i hfits
  refine .output (by decide) _ _ fun hs => ?_
  rw [enc_length_of_wf (hs.stage.seg_wf hvalid)]
  exact ⟨hfits, regOfNat_toNat_of_fits hs.params hfits⟩

theorem conEncodeBody_writes {s t : State} {img : List Byte} (h : writeOutput s img = .ok t) :
    CommandWrites s .conEncode t := by
  unfold writeOutput at h
  split at h <;> cases h
  rename_i hfits
  exact .output (by decide) _ _ fun hs => ⟨hfits, regOfNat_toNat_of_fits hs.params hfits⟩

theorem goodStore_nil (p : Params) : GoodStore p [] := by
  refine ⟨nofun, ?_, ?_⟩
  · cases hlimit : p.maxSegments <;> simp [withinLimit]
  · cases hlimit : p.storeBytes <;> simp [withinLimit, storeBytesOf]

/-- Of well-formed segments the two limits of CON_DECODE are the store's own (43_container R172, 10_state R41). -/
theorem decodedFits_iff_storeFits (p : Params) {gs : List Segment} (hwf : ∀ g ∈ gs, g.wf) :
    decodedFits p gs = true ↔ storeFits p gs := by
  rw [decodedFits, Bool.and_eq_true, lenSum_eq_storeBytesOf hwf, storeFits]

theorem goodStore_append {s : State} (hs : s.Inv) (hvalid : s.stage.valid = true) (hfits : appendFits s = true) :
    GoodStore s.params (s.store ++ [s.stage.seg]) := by
  have hseg := hs.stage.seg_wf hvalid
  rw [appendFits, Bool.and_eq_true, hseg.lenIsPayloadLength] at hfits
  refine ⟨List.forall_mem_append.mpr ⟨hs.store, by simpa using hseg⟩, ?_⟩
  rwa [storeFits, List.length_append, storeBytesOf_append]

theorem withinLimit_of_le {m n : Nat} {limit : Option Nat} (hle : m ≤ n) (h : withinLimit n limit = true) :
    withinLimit m limit = true := by
  rw [withinLimit_iff_atMost] at h ⊢
  exact fun k hk => Nat.le_trans hle (h k hk)

theorem storeBytesOf_le_of_sublist {gs hs : List Segment} (h : hs.Sublist gs) : storeBytesOf hs ≤ storeBytesOf gs := by
  induction h with
  | slnil => exact Nat.le_refl _
  | cons g _ ih => exact Nat.le_trans ih (Nat.le_add_left _ _)
  | cons_cons g _ ih => exact Nat.add_le_add_left ih _

/-- Taking segments out of a store keeps what it must meet. -/
theorem GoodStore.sublist {p : Params} {gs hs : List Segment} (hsub : hs.Sublist gs) (h : GoodStore p gs) :
    GoodStore p hs := by
  obtain ⟨hwf, hcount, hbytes⟩ := h
  exact ⟨fun g hg => hwf g (hsub.subset hg), withinLimit_of_le hsub.length_le hcount,
    withinLimit_of_le (storeBytesOf_le_of_sublist hsub) hbytes⟩

theorem conNewBody_writes (s : State) : CommandWrites s .conNew { s with store := [] } :=
  .store (by decide) [] fun _ => goodStore_nil s.params

theorem conDecodeBody_writes {s t : State} {r : List Byte} (h : conDecodeBody s r = .ok t) :
    CommandWrites s .conDecode t := by
  unfold conDecodeBody at h
  split at h
  · cases h
  split at h
  case isFalse => cases h
  split at h
  · cases h
  rename_i gs hparse
  split at h <;> cases h
  rename_i hfits
  have hwf := parseRecordsFuel_wf hparse
  exact .store (by decide) gs fun _ => ⟨hwf, (decodedFits_iff_storeFits _ hwf).mp hfits⟩

theorem conAppendBody_writes {s t : State} (h : conAppendBody s = .ok t) : CommandWrites s .conAppend t := by
  unfold conAppendBody at h
  split at h
  case isFalse => cases h
  rename_i hvalid
  split at h <;> cases h
  rename_i hfits
  exact .store (by decide) _ fun hs => goodStore_append hs hvalid hfits

/-- CON_REMOVE leaves STORE as it is or without one segment (43_container R183). -/
theorem conRemoveBody_writes (s : State) : CommandWrites s .conRemove (conRemoveBody s) := by
  unfold conRemoveBody
  split
  · exact .remove s.store false fun hs => ⟨hs.store, hs.capacity⟩
  · rename_i k _
    refine .remove _ true fun hs => GoodStore.sublist ?_ ⟨hs.store, hs.capacity⟩
    rw [← List.eraseIdx_eq_take_drop_succ]
    exact List.eraseIdx_sublist _ _

/-! ## The end of a command -/

/-- A command that began in `u` ends with an error report, or with success after what it may write. -/
def EndsFrom (i : Instr) (u t : State) : Prop :=
  (∃ e, t = u.raise e) ∨ ∃ v, CommandWrites u i v ∧ t = v.finish

/-- Where a command begins to write: at `s`, or where UninitRead fires at `s` with that recorded (20_memory R65). -/
def BeginsAt (i : Instr) (s u : State) : Prop :=
  (¬ UninitFires i s ∧ u = s) ∨ (UninitFires i s ∧ u = s.recordUninit)

theorem endsFrom_complete {i : Instr} {u : State} {r : Except ErrorCode State}
    (h : ∀ v, r = .ok v → CommandWrites u i v) : EndsFrom i u (complete u r) := by
  cases r with
  | ok v => exact .inr ⟨v, h v rfl, rfl⟩
  | error e => exact .inl ⟨e, rfl⟩

theorem not_uninitFires_of_outside {i : Instr} {s : State} (h : s.regionInside = false) : ¬ UninitFires i s :=
  fun ⟨_, hin, _⟩ => of_decide_eq_false h hin

theorem not_uninitFires_of_holds {i : Instr} {s : State} {bs : List Byte} (h : s.RegionHolds bs) :
    ¬ UninitFires i s := by
  rintro ⟨-, -, hun⟩
  exact Bool.false_ne_true ((regionWritten_eq_false_of_unwritten hun).symm.trans (regionWritten_of_holds h))

/-- How a region command ends, from what its body may write. -/
theorem withRegion_ends {i : Instr} {body : State → List Byte → Except ErrorCode State} (s : State)
    (hi : i ∈ regionCommands)
    (hbody : ∀ u v bs, bs.length = u.srcLen.toNat → body u bs = .ok v → CommandWrites u i v) :
    ∃ u, BeginsAt i s u ∧ EndsFrom i u (withRegion s body) := by
  rcases withRegion_cases (rfl : withRegion s body = _) with
    ⟨hout, hend⟩ | ⟨bs, hbs, hend⟩ | ⟨hin, hun, huninit⟩
  · exact ⟨s, .inl ⟨not_uninitFires_of_outside hout, rfl⟩, .inl ⟨_, hend⟩⟩
  · exact ⟨s, .inl ⟨not_uninitFires_of_holds hbs, rfl⟩, hend ▸ endsFrom_complete fun v => hbody s v bs hbs.length⟩
  · have hfires : UninitFires i s :=
      ⟨hi, of_decide_eq_true hin, regionUnwritten_of_regionWritten_eq_false hun⟩
    refine ⟨s.recordUninit, .inr ⟨hfires, rfl⟩, ?_⟩
    rcases huninit with ⟨e, hend⟩ | ⟨bs, hlen, hend⟩
    · exact .inl ⟨e, hend⟩
    · exact hend ▸ endsFrom_complete fun v => hbody _ v bs hlen

/-- How a command ends that reads no region. -/
theorem complete_ends {i : Instr} {s : State} {r : Except ErrorCode State} (hi : i ∉ regionCommands)
    (hr : ∀ v, r = .ok v → CommandWrites s i v) : ∃ u, BeginsAt i s u ∧ EndsFrom i u (complete s r) :=
  ⟨s, .inl ⟨fun ⟨hmem, _⟩ => hi hmem, rfl⟩, endsFrom_complete hr⟩

/-- Everything a command can do. -/
theorem exec_ends {i : Instr} {s t : State} (h : exec i s = .next t) : ∃ u, BeginsAt i s u ∧ EndsFrom i u t := by
  cases i <;> cases h
  case tcCheck => exact complete_ends (by decide) fun _ => tcCheckBody_writes
  case tcFromString => exact withRegion_ends s (by decide) fun _ _ _ _ => tcFromStringBody_writes
  case crcGen => exact withRegion_ends s (by decide) fun _ _ _ _ => crcGenBody_writes
  case crcCheck => exact withRegion_ends s (by decide) fun _ _ _ _ => crcCheckBody_writes
  case crcRaw => exact withRegion_ends s (by decide) fun _ _ _ _ => crcRawBody_writes
  case segNew => exact withRegion_ends s (by decide) fun _ _ _ => segNewBody_writes
  case segDecode => exact withRegion_ends s (by decide) fun _ _ _ _ => segDecodeBody_writes
  case segEncode => exact complete_ends (by decide) fun _ => segEncodeBody_writes
  case segRead => exact complete_ends (by decide) fun _ => segReadBody_writes
  case conNew => exact complete_ends (by decide) fun _ hv => Except.ok.inj hv ▸ conNewBody_writes s
  case conDecode => exact withRegion_ends s (by decide) fun _ _ _ _ => conDecodeBody_writes
  case conEncode => exact complete_ends (by decide) fun _ => conEncodeBody_writes
  case conAppend => exact complete_ends (by decide) fun _ => conAppendBody_writes
  case conRemove => exact complete_ends (by decide) fun _ hv => Except.ok.inj hv ▸ conRemoveBody_writes s

end Sys2Proof.Machine
end

section
/-! SUPPORT. A property that every event but the platform's reset keeps, and the invariants of the block as such
properties. -/

namespace Sys2Proof.Machine

/-- What a bus access that starts no command leaves alone, and what it may do to IBUF and the fault records. -/
structure AccessFrame (s t : State) : Prop where
  params : t.params = s.params
  stage : t.stage = s.stage
  store : t.store = s.store
  obuf : t.obuf = s.obuf
  outLen : t.outLen = s.outLen
  err : t.err = s.err
  errcode : t.errcode = s.errcode
  removed : t.removed = s.removed
  pending : t.pending = s.pending
  uninitRead : t.faults.uninitRead = s.faults.uninitRead
  busError : s.faults.busError = true → t.faults.busError = true
  ibuf : t.ibuf = s.ibuf ∨ ∃ i bs, i + bs.length ≤ s.params.ibufSize ∧ t.ibuf = Memory.writeBytes s.ibuf i bs

theorem access_frame {s t : State} {a : Access} (h : s.access a = .done t) : AccessFrame s t := by
  obtain ⟨params, stage, store, obuf, outLen, err, errcode, removed, -, -, pending, uninitRead, busError, ibuf⟩ :=
    access_done h
  exact ⟨params, stage, store, obuf, outLen, err, errcode, removed, pending, uninitRead, busError, ibuf⟩

/-- What a property of states needs, to be kept by every command and every bus access. -/
structure KeptByEvents (P : State → Prop) : Prop where
  pending : ∀ s es, P s → P { s with pending := es }
  access : ∀ s a t, P s → s.access a = .done t → P t
  respondDone : ∀ s, P s → P s.respondDone
  recordUninit : ∀ s, P s → P s.recordUninit
  raise : ∀ s e, P s → P (s.raise e)
  writes : ∀ s i t, P s → CommandWrites s i t → P t.finish

theorem KeptByEvents.after_exec {P : State → Prop} (hP : KeptByEvents P) {i : Instr} {s t : State} (hs : P s)
    (h : exec i s = .next t) : P t := by
  obtain ⟨u, hbegin, hend⟩ := exec_ends h
  have hu : P u := by
    rcases hbegin with ⟨-, rfl⟩ | ⟨-, rfl⟩
    · exact hs
    · exact hP.recordUninit s hs
  rcases hend with ⟨e, rfl⟩ | ⟨v, hwrites, rfl⟩
  · exact hP.raise u e hu
  · exact hP.writes u i v hu hwrites

theorem KeptByEvents.after_step {P : State → Prop} (hP : KeptByEvents P) {s t : State} (hs : P s)
    (hreset : s.pending.head? = some .reset → P s.applyReset) (h : step s = .next t) : P t := by
  rcases step_cases h with ⟨-, rfl⟩ | ⟨es, hp, rfl⟩ | ⟨a, es, -, hdone⟩ | ⟨a, es, w, u, -, hcommand, hrun⟩
  · exact hs
  · exact hP.pending _ es (hreset (by rw [hp]; rfl))
  · exact hP.access _ a t (hP.pending s es hs) hdone
  · obtain rfl := access_command hcommand
    have hu := hP.respondDone _ (hP.pending s es hs)
    rcases runCommand_cases hrun with ⟨i, -, hexec⟩ | ⟨-, rfl⟩
    · exact hP.after_exec hu hexec
    · exact hP.raise _ _ hu

/-! ## The parameters and the fault records -/

theorem CommandWrites.params {s t : State} {i : Instr} (h : CommandWrites s i t) : t.params = s.params := by
  cases h <;> rfl

theorem CommandWrites.faults {s t : State} {i : Instr} (h : CommandWrites s i t) : t.faults = s.faults := by
  cases h <;> rfl

theorem keptByEvents_params (p : Params) : KeptByEvents fun s => s.params = p where
  pending _ _ hs := hs
  access _ _ _ hs hdone := (access_frame hdone).params.trans hs
  respondDone _ hs := hs
  recordUninit _ hs := hs
  raise _ _ hs := hs
  writes _ _ _ hs hwrites := hwrites.params.trans hs

/-- Settles O56: the parameters are kept by every event, and the reset keeps them too. -/
theorem parametersNeverChange : Obligations.ParametersNeverChange :=
  fun s _ h => (keptByEvents_params s.params).after_step rfl (fun _ => rfl) h

theorem keptByEvents_busError : KeptByEvents fun s => s.faults.busError = true where
  pending _ _ hs := hs
  access _ _ _ hs hdone := (access_frame hdone).busError hs
  respondDone _ hs := hs
  recordUninit _ hs := hs
  raise _ _ hs := hs
  writes _ _ _ hs hwrites := (congrArg _ hwrites.faults).trans hs

theorem keptByEvents_uninitRead : KeptByEvents fun s => s.faults.uninitRead = true where
  pending _ _ hs := hs
  access _ _ _ hs hdone := (access_frame hdone).uninitRead.trans hs
  respondDone _ hs := hs
  recordUninit _ _ := rfl
  raise _ _ hs := hs
  writes _ _ _ hs hwrites := (congrArg _ hwrites.faults).trans hs

/-- Settles O41: every event but the reset keeps each of the two records. -/
theorem faultRecordsAreKept : Obligations.FaultRecordsAreKept := fun _ _ h hreset =>
  ⟨fun hs => keptByEvents_busError.after_step hs (absurd · hreset) h,
    fun hs => keptByEvents_uninitRead.after_step hs (absurd · hreset) h⟩

/-! ## The canonical form of the buffers -/

theorem AccessFrame.ibuf_wf {s t : State} (h : AccessFrame s t) (hs : Memory.wf s.ibuf) : Memory.wf t.ibuf := by
  rcases h.ibuf with hsame | ⟨i, bs, -, hwrite⟩
  · rwa [hsame]
  · rw [hwrite]
    exact Memory.writeBytes_wf hs i bs

theorem CommandWrites.ibuf {s t : State} {i : Instr} (h : CommandWrites s i t) : t.ibuf = s.ibuf := by
  cases h <;> rfl

theorem CommandWrites.obuf {s t : State} {i : Instr} (h : CommandWrites s i t) :
    t.obuf = s.obuf ∨ ∃ img, t.obuf = Memory.writeBytes s.obuf 0 img := by
  cases h
  case output img n hi himg => exact .inr ⟨img, rfl⟩
  all_goals exact .inl rfl

theorem keptByEvents_buffers : KeptByEvents fun s => Memory.wf s.ibuf ∧ Memory.wf s.obuf where
  pending _ _ hs := hs
  access _ _ _ hs hdone := ⟨(access_frame hdone).ibuf_wf hs.1, (access_frame hdone).obuf ▸ hs.2⟩
  respondDone _ hs := hs
  recordUninit _ hs := hs
  raise _ _ hs := hs
  writes s i t hs hwrites := by
    refine ⟨(congrArg Memory.wf hwrites.ibuf).mpr hs.1, ?_⟩
    rcases hwrites.obuf with hsame | ⟨img, himg⟩
    · exact (congrArg Memory.wf hsame).mpr hs.2
    · exact (congrArg Memory.wf himg).mpr (Memory.writeBytes_wf hs.2 0 img)

/-- Settles O55: each event writes into the canonical lists or leaves them, and the reset empties them. -/
theorem stepKeepsBuffersCanonical : Obligations.StepKeepsBuffersCanonical := fun s _ hibuf hobuf h =>
  keptByEvents_buffers.after_step ⟨hibuf, hobuf⟩ (fun _ => reset_buffers_wf s.params) h

/-! ## The invariant of the block -/

theorem inv_resetWith {p : Params} (hp : p.wf = true) : (State.resetWith p).Inv where
  params := hp
  stage := rfl
  store := (goodStore_nil p).1
  capacity := (goodStore_nil p).2
  ibuf := ⟨(reset_buffers_wf p).1, nofun⟩
  obuf := ⟨(reset_buffers_wf p).2, nofun⟩
  output := ⟨Nat.zero_le _, nofun⟩
  errAgrees := rfl

/-- Settles O53: at reset STAGE, STORE, the buffers and the error report are empty. -/
theorem invariantAtReset : Obligations.InvariantAtReset :=
  ⟨fun _ => inv_resetWith, inv_resetWith (by decide)⟩

/-- An access writes no more than IBUF bytes inside its size. -/
theorem AccessFrame.inv {s t : State} (h : AccessFrame s t) (hs : s.Inv) : t.Inv where
  params := h.params ▸ hs.params
  stage := h.stage ▸ hs.stage
  store := h.store ▸ hs.store
  capacity := by rw [h.params, h.store]; exact hs.capacity
  ibuf := by
    rw [h.params]
    rcases h.ibuf with hsame | ⟨i, bs, hin, hwrite⟩
    · exact hsame ▸ hs.ibuf
    · exact hwrite ▸ Memory.fits_writeBytes hs.ibuf hin
  obuf := by rw [h.params, h.obuf]; exact hs.obuf
  output := by rw [State.outputWritten, h.params, h.outLen, h.obuf]; exact hs.output
  errAgrees := by rw [h.err, h.errcode]; exact hs.errAgrees

/-- An encode writes as many bytes of OBUF, from index 0, as OUT_LEN then says (10_state R33). -/
theorem outputWritten_writeBytes {s : State} {img : List Byte} {n : Word} (hfits : img.length ≤ s.params.obufSize)
    (hn : n.toNat = img.length) :
    State.outputWritten { s with obuf := Memory.writeBytes s.obuf 0 img, outLen := n } := by
  refine ⟨Nat.le_trans (Nat.le_of_eq hn) hfits, fun k hk => ?_⟩
  rw [Memory.read_writeBytes_zero, List.getElem?_eq_getElem (hn ▸ hk)]
  rfl

theorem CommandWrites.inv_finish {s t : State} {i : Instr} (h : CommandWrites s i t) (hs : s.Inv) : t.finish.Inv := by
  cases h with
  | flags | typeCode | checksum => exact { hs with errAgrees := rfl }
  | stage hi g hg => exact { hs with stage := hg hs, errAgrees := rfl }
  | output hi img n himg =>
    obtain ⟨hfits, hn⟩ := himg hs
    exact { hs with
      obuf := Memory.fits_writeBytes hs.obuf (Nat.le_trans (Nat.le_of_eq (Nat.zero_add _)) hfits)
      output := outputWritten_writeBytes hfits hn
      errAgrees := rfl }
  | store hi gs hgs => exact { hs with store := (hgs hs).1, capacity := (hgs hs).2, errAgrees := rfl }
  | remove gs b hgs => exact { hs with store := (hgs hs).1, capacity := (hgs hs).2, errAgrees := rfl }

theorem keptByEvents_inv : KeptByEvents State.Inv where
  pending _ _ hs := { hs with }
  access _ _ _ hs hdone := (access_frame hdone).inv hs
  respondDone _ hs := { hs with }
  recordUninit _ hs := { hs with }
  raise _ _ hs := { hs with errAgrees := rfl }
  writes _ _ _ hs hwrites := hwrites.inv_finish hs

/-- Settles O54: every event keeps the invariant, and the reset begins it again. -/
theorem stepKeepsInvariant : Obligations.StepKeepsInvariant := fun _ _ hs h =>
  keptByEvents_inv.after_step hs (fun _ => { inv_resetWith hs.params with }) h

end Sys2Proof.Machine
end

section
/-! SUPPORT. How a command's end tells which rule it followed: the fault records, its one outcome and its frame
(60_exceptions R201, R202, R205, 10_state R22). -/

namespace Sys2Proof.Machine

theorem CommandWrites.draws {s t : State} {i : Instr} (h : CommandWrites s i t) : t.draws = s.draws := by
  cases h <;> rfl

/-- However a command ends, it leaves the fault records and the count of draws as they were where it began to write. -/
theorem EndsFrom.faults_draws {i : Instr} {u t : State} (h : EndsFrom i u t) :
    t.faults = u.faults ∧ t.draws = u.draws := by
  rcases h with ⟨e, rfl⟩ | ⟨v, hwrites, rfl⟩
  · exact ⟨rfl, rfl⟩
  · exact ⟨hwrites.faults, hwrites.draws⟩

theorem EndsFrom.eq_raise {i : Instr} {u t : State} (h : EndsFrom i u t) (herr : t.err = true) :
    ∃ e, t = u.raise e := by
  rcases h with hraise | ⟨v, -, rfl⟩
  · exact hraise
  · cases herr

/-- Settles O37: a command begins to write where it stands or with UninitRead recorded, and its end keeps that. -/
theorem uninitReadIsRecorded : Obligations.UninitReadIsRecorded := by
  intro i s
  obtain ⟨t, ht⟩ := exec_next i s
  obtain ⟨u, hbegin, hend⟩ := exec_ends ht
  obtain ⟨hfaults, hdraws⟩ := hend.faults_draws
  rcases hbegin with ⟨hnot, rfl⟩ | ⟨hfires, rfl⟩
  · exact ⟨(absurd · hnot), fun _ => ⟨t, ht, hfaults, hdraws⟩⟩
  · refine ⟨fun _ => ⟨t, ht, hfaults, fun herr => ?_⟩, (absurd hfires ·)⟩
    obtain ⟨e, hraise⟩ := hend.eq_raise herr
    exact ⟨e, s.regionDraw.2 + 1, hraise⟩

/-- Settles O39: `raise` reports one error code and `finish` reports success. -/
theorem everyCommandCompletes : Obligations.EveryCommandCompletes := by
  intro i s
  obtain ⟨t, ht⟩ := exec_next i s
  refine ⟨t, ht, ?_⟩
  obtain ⟨u, -, ⟨e, rfl⟩ | ⟨v, -, rfl⟩⟩ := exec_ends ht
  · exact .inr ⟨rfl, e, rfl⟩
  · exact .inl ⟨rfl, rfl⟩

/-- What command `i` leaves alone between `s` and `t`: each register and view by the commands that may write it. -/
structure CommandFrame (i : Instr) (s t : State) : Prop where
  params : t.params = s.params
  srcOff : t.srcOff = s.srcOff
  srcLen : t.srcLen = s.srcLen
  index : t.index = s.index
  crcExpect : t.crcExpect = s.crcExpect
  ibuf : t.ibuf = s.ibuf
  pending : t.pending = s.pending
  resp : t.resp = s.resp
  busError : t.faults.busError = s.faults.busError
  typeArg : i ≠ .tcFromString → t.typeArg = s.typeArg
  tcflags : i ∉ [Instr.tcCheck, .tcFromString] → t.tcflags = s.tcflags
  crcResult : i ∉ [Instr.crcGen, .crcCheck, .crcRaw] → t.crcResult = s.crcResult
  output : i ∉ [Instr.segEncode, .conEncode] → t.outLen = s.outLen ∧ t.obuf = s.obuf
  stage : i ∉ [Instr.segNew, .segDecode, .segRead] → t.stage = s.stage
  store : i ∉ [Instr.conNew, .conDecode, .conAppend, .conRemove] → t.store = s.store
  removed : i ≠ .conRemove → t.removed = s.removed

theorem CommandFrame.refl (i : Instr) (s : State) : CommandFrame i s s where
  params := rfl
  srcOff := rfl
  srcLen := rfl
  index := rfl
  crcExpect := rfl
  ibuf := rfl
  pending := rfl
  resp := rfl
  busError := rfl
  typeArg _ := rfl
  tcflags _ := rfl
  crcResult _ := rfl
  output _ := ⟨rfl, rfl⟩
  stage _ := rfl
  store _ := rfl
  removed _ := rfl

theorem CommandWrites.frame {s t : State} {i : Instr} (h : CommandWrites s i t) : CommandFrame i s t := by
  cases h with
  | flags => exact { CommandFrame.refl _ s with tcflags := absurd (by decide) }
  | typeCode =>
    exact { CommandFrame.refl _ s with typeArg := absurd rfl, tcflags := absurd (by decide) }
  | checksum hi => exact { CommandFrame.refl i s with crcResult := absurd hi }
  | stage hi => exact { CommandFrame.refl i s with stage := absurd hi }
  | output hi => exact { CommandFrame.refl i s with output := absurd hi }
  | store hi =>
    exact { CommandFrame.refl i s with store := absurd (List.mem_append_left [Instr.conRemove] hi) }
  | remove => exact { CommandFrame.refl _ s with store := absurd (by decide), removed := absurd rfl }

theorem exec_frame {i : Instr} {s t : State} (h : exec i s = .next t) : CommandFrame i s t := by
  obtain ⟨u, hbegin, hend⟩ := exec_ends h
  have hframe : CommandFrame i u t := by
    rcases hend with ⟨e, rfl⟩ | ⟨v, hwrites, rfl⟩
    · exact { CommandFrame.refl i u with }
    · exact { hwrites.frame with }
  rcases hbegin with ⟨-, rfl⟩ | ⟨-, rfl⟩
  · exact hframe
  · exact { hframe with }

/-- Settles O57: the frame of what a command may write. -/
theorem commandsWriteOnlyTheirRegisters : Obligations.CommandsWriteOnlyTheirRegisters := by
  intro i s t h
  have f := exec_frame h
  exact ⟨f.params, f.srcOff, f.srcLen, f.index, f.crcExpect, f.ibuf, f.pending, f.resp, f.busError, f.typeArg,
    f.tcflags, f.crcResult, f.output, f.stage, f.store, f.removed⟩

end Sys2Proof.Machine
end

section
/-! SUPPORT. A step as one host event, and which event changes STAGE_VALID, REMOVED and OBUF (10_state R24, R43,
20_memory R60). -/

namespace Sys2Proof.Machine

/-! ## The access that starts a command -/

theorem regOffset_of_regAt {off : Nat} {r : CtrlReg} (h : regAt off = some r) : off = regOffset r := by
  unfold regAt at h
  split at h <;> cases h <;> rfl

theorem targetOf_eq_ctrl {p : Params} {addr : Word} {off : Nat} (h : targetOf p addr = .ctrl off) :
    addr.toNat = off := by
  unfold targetOf at h
  split at h
  · exact Target.ctrl.inj h
  split at h
  · cases h
  split at h <;> cases h

/-- CMD is the one register whose write starts a command (10_state R22, R23). -/
theorem eq_cmd_of_writeOnly {r : CtrlReg} (h : regAccess r = .writeOnly) : r = .cmd := by
  cases r <;> cases h
  rfl

theorem writeCtrl_command {s u : State} {off : Nat} {w w' : Word} (h : s.writeCtrl off w = .command w' u) :
    off = 0 ∧ w' = w := by
  unfold State.writeCtrl at h
  split at h
  · cases h
  rename_i r hr
  split at h <;> cases h
  rename_i hright
  rw [eq_cmd_of_writeOnly hright] at hr
  exact ⟨regOffset_of_regAt hr, rfl⟩

/-- A command starts in a 32-bit write of its word to address 0, and in nothing else (10_state R23). -/
theorem access_command_eq {s u : State} {a : Access} {w : Word} (h : s.access a = .command w u) :
    a = .write32 0x00000000 w := by
  cases a with
  | read8 | write8 =>
    simp only [State.access] at h
    split at h <;> cases h
  | read32 =>
    simp only [State.access] at h
    split at h
    · split at h <;> cases h
    · cases h
  | otherWidth => cases h
  | write32 addr w' =>
    simp only [State.access] at h
    split at h
    case isFalse => cases h
    split at h
    case h_1 off htarget =>
      obtain ⟨hoff, rfl⟩ := writeCtrl_command h
      have haddr : addr = 0x00000000 := BitVec.eq_of_toNat_eq ((targetOf_eq_ctrl htarget).trans hoff)
      rw [haddr]
    all_goals cases h

/-! ## One event a step -/

theorem runCommand_next (w : Word) (s : State) : ∃ t, runCommand w s = .next t := by
  unfold runCommand
  split
  · exact exec_next _ s
  · exact ⟨_, rfl⟩

theorem runAccess_next (a : Access) (s : State) : ∃ t, runAccess a s = .next t := by
  unfold runAccess
  split
  · exact ⟨_, rfl⟩
  · exact runCommand_next _ _

/-- A step takes its event off the list. -/
theorem step_pending {s t : State} {e : HostEvent} {es : List HostEvent} (hp : s.pending = e :: es)
    (h : step s = .next t) : t.pending = es := by
  rcases step_cases h with ⟨hnil, -⟩ | ⟨es', hp', rfl⟩ | ⟨a, es', hp', hdone⟩ | ⟨a, es', w, u, hp', hcommand, hrun⟩
  · cases hp.symm.trans hnil
  all_goals cases hp.symm.trans hp'
  · rfl
  · exact (access_frame hdone).pending
  · obtain rfl := access_command hcommand
    rcases runCommand_cases hrun with ⟨i, -, hexec⟩ | ⟨-, rfl⟩
    · exact (exec_frame hexec).pending
    · rfl

theorem step_idle {s : State} (h : s.pending = []) : step s = .next s := by
  simp only [step, runNext, h]

theorem step_reset {s : State} {es : List HostEvent} (h : s.pending = .reset :: es) :
    step s = .next { s with pending := es }.applyReset := by
  simp only [step, runNext, h, runEvent]

theorem step_secondHost {s : State} {a : Access} {es : List HostEvent} (h : s.pending = .secondHost a :: es) :
    step s = .refused .secondHostAgent := by
  simp only [step, runNext, h, runEvent]

/-- Settles O59: each kind of event has its own step, and a next state has the event taken off. -/
theorem stepIsOneHostEvent : Obligations.StepIsOneHostEvent := by
  refine fun s => ⟨step_idle, fun a es => step_secondHost, fun e es hp hone => ?_⟩
  have hnext : ∃ t, step s = .next t := by
    cases e with
    | access a => exact step_access hp ▸ runAccess_next a _
    | reset => exact ⟨_, step_reset hp⟩
    | secondHost a => exact absurd rfl (hone a)
  obtain ⟨t, ht⟩ := hnext
  exact ⟨t, ht, step_pending hp ht⟩

/-! ## The events that change STAGE_VALID, REMOVED and OBUF -/

/-- A step that is not the reset leaves STAGE, REMOVED and OBUF alone, or is the CMD write of a command. -/
theorem step_frame_or_command {s t : State} (h : step s = .next t) (hreset : s.pending.head? ≠ some .reset) :
    (t.stage = s.stage ∧ t.removed = s.removed ∧ t.obuf = s.obuf) ∨
    ∃ i es, s.pending.head? = some (.access (.write32 0x00000000 (encode i))) ∧
      exec i (State.respondDone { s with pending := es }) = .next t := by
  rcases step_cases h with ⟨-, rfl⟩ | ⟨es, hp, -⟩ | ⟨a, es, -, hdone⟩ | ⟨a, es, w, u, hp, hcommand, hrun⟩
  · exact .inl ⟨rfl, rfl, rfl⟩
  · exact absurd (by rw [hp]; rfl) hreset
  · have hframe := access_frame hdone
    exact .inl ⟨hframe.stage, hframe.removed, hframe.obuf⟩
  · obtain rfl := access_command hcommand
    rcases runCommand_cases hrun with ⟨i, hi, hexec⟩ | ⟨-, rfl⟩
    · rw [access_command_eq hcommand, decode_eq_some_iff.mp hi] at hp
      exact .inr ⟨i, es, by rw [hp]; rfl, hexec⟩
    · exact .inl ⟨rfl, rfl, rfl⟩

theorem keptByEvents_stageValid : KeptByEvents fun s => s.stage.valid = true where
  pending _ _ hs := hs
  access _ _ _ hs hdone := (access_frame hdone).stage ▸ hs
  respondDone _ hs := hs
  recordUninit _ hs := hs
  raise _ _ hs := hs
  writes s i t hs hwrites := by
    cases hwrites
    case stage => rfl
    all_goals exact hs

/-- An error report leaves STAGE as it was (60_exceptions R201). -/
theorem exec_stage_of_err {i : Instr} {s t : State} (h : exec i s = .next t) (herr : t.err = true) :
    t.stage = s.stage := by
  obtain ⟨u, hbegin, hend⟩ := exec_ends h
  obtain ⟨e, rfl⟩ := hend.eq_raise herr
  rcases hbegin with ⟨-, rfl⟩ | ⟨-, rfl⟩ <;> rfl

/-- STAGE changes only in a command of the three that stage a segment, and only if it succeeds. -/
theorem exec_stage_ne {i : Instr} {s t : State} (h : exec i s = .next t) (hne : t.stage ≠ s.stage) :
    t.err = false ∧ i ∈ [Instr.segNew, .segDecode, .segRead] :=
  ⟨Bool.eq_false_iff.mpr fun herr => hne (exec_stage_of_err h herr),
    Decidable.byContradiction fun hi => hne ((exec_frame h).stage hi)⟩

theorem encode_mem_of_stages {i : Instr} (hi : i ∈ [Instr.segNew, .segDecode, .segRead]) :
    encode i ∈ ([0x00000020, 0x00000021, 0x00000023] : List Word) :=
  List.mem_map_of_mem (f := encode) hi

/-- Settles O58: outside the command that an event starts all three are unchanged, and the command's frame says which
command it was. -/
theorem stateChangesOnlyByItsEvents : Obligations.StateChangesOnlyByItsEvents := by
  intro s t h hreset
  refine ⟨fun hvalid => keptByEvents_stageValid.after_step hvalid (absurd · hreset) h, ?_⟩
  rcases step_frame_or_command h hreset with ⟨hstage, hremoved, hobuf⟩ | ⟨i, es, hhead, hexec⟩
  · exact ⟨fun hs ht => absurd (hs.symm.trans (hstage ▸ ht)) (by decide), (absurd hremoved ·), (absurd hobuf ·)⟩
  rw [hhead]
  have hframe := exec_frame hexec
  refine ⟨fun hs ht => ?_, fun hne => ?_, fun hne => ?_⟩
  · obtain ⟨herr, hi⟩ := exec_stage_ne hexec fun heq => by
      rw [heq] at ht
      exact Bool.false_ne_true (hs.symm.trans ht)
    exact ⟨herr, encode i, encode_mem_of_stages hi, rfl⟩
  · have hi : i = .conRemove := Decidable.byContradiction fun hi => hne (hframe.removed hi)
    rw [hi]; rfl
  · have hi : i ∈ [Instr.segEncode, .conEncode] :=
      Decidable.byContradiction fun hi => hne (hframe.output hi).2
    simp only [List.mem_cons, List.not_mem_nil, or_false] at hi
    exact hi.imp (fun hi => by rw [hi]; rfl) (fun hi => by rw [hi]; rfl)

end Sys2Proof.Machine
end

section
/-! SUPPORT. The CRC family: a flipped bit changes the checksum, and CRC_RAW (41_crc R120, R127). -/

namespace Sys2Proof.Machine

/-- A byte enters a byte step only by the exclusive-or into the running value. -/
theorem crcByte_eq_zero_byte (c : Word) (b : Byte) : crcByte c b = crcByte (c ^^^ b.setWidth 32) 0 := by
  simp [crcByte]

/-- A byte step loses nothing of the byte. -/
theorem crcByte_injective_right {c : Word} {b b' : Byte} (h : crcByte c b = crcByte c b') : b = b' := by
  rw [crcByte_eq_zero_byte c b, crcByte_eq_zero_byte c b'] at h
  have hxor := crcByte_injective_left h
  rw [BitVec.xor_comm c, BitVec.xor_comm c] at hxor
  have hback := congrArg (BitVec.setWidth 8) (word_xor_right_cancel hxor)
  simpa using hback

/-- Two byte sequences that differ in one byte have different checksums. -/
theorem crc32_ne_of_byte_ne {a c : List Byte} {b b' : Byte} (h : b' ≠ b) :
    crc32 (a ++ b' :: c) ≠ crc32 (a ++ b :: c) := by
  intro heq
  have hrun := word_xor_right_cancel heq
  rw [crcRun_append, crcRun_append, crcRun_cons, crcRun_cons] at hrun
  exact h (crcByte_injective_right (crcRun_injective_left hrun))

theorem xor_bit_ne (b : Byte) {j : Nat} (h : j < 8) : b ^^^ ((1 : Byte) <<< j) ≠ b := by
  intro heq
  have hbit := congrArg (·.getLsbD j) heq
  simp [h] at hbit

/-- Settles O13: the flipped byte differs, and each step of the CRC is injective. -/
theorem segmentChecksumDetectsBitFlip : Obligations.SegmentChecksumDetectsBitFlip := by
  intro t t' p p' a c b j hj hbytes hflipped
  rw [segCrc, segCrc, hbytes, hflipped]
  exact crc32_ne_of_byte_ne (xor_bit_ne b hj)

theorem crcRawBody_faults {u t : State} {r : List Byte} (h : crcRawBody u r = .ok t) : t.faults = u.faults := by
  cases h; rfl

/-- Settles O16: the rule of a region command, with a body that cannot fail. -/
theorem crcRawResult : Obligations.CrcRawResult :=
  ⟨rfl, fun _ => regionCommand_of_body rfl (fun _ _ _ => crcRawBody_faults) fun _ => rfl⟩

/-- Settles O17: both commands compute the checksum of the same bytes. -/
theorem crcRawOfTypeAndPayloadIsCrcGen : Obligations.CrcRawOfTypeAndPayloadIsCrcGen := by
  intro s u v w t p hs hu htype hraw hgen
  rw [(crcRawResult.2 s).holds _ hs] at hraw
  rw [(crcGenResult.2 u).holds _ hu, htype, unpack4_pack4] at hgen
  cases hraw
  cases hgen
  rfl

/-- Settles O12: the ten inputs, computed. -/
theorem crcCheckValues : Obligations.CrcCheckValues := by
  unfold Obligations.CrcCheckValues
  decide +kernel

end Sys2Proof.Machine
end

section
/-! SUPPORT. Characters and their UTF-8 bytes (40_typecode section 2): an ASCII letter is one byte, its own number, and
no other character is encoded in letter bytes. -/

namespace Sys2Proof.Machine

/-- The bytes of a character's UTF-8 encoding, as the model's bytes. -/
def charBytes (c : Char) : List Byte := (String.utf8EncodeChar c).map UInt8.toBitVec

/-- An ASCII letter, by its code point (00_scope R11). -/
def LetterChar (c : Char) : Prop := (0x41 ≤ c.toNat ∧ c.toNat ≤ 0x5A) ∨ (0x61 ≤ c.toNat ∧ c.toNat ≤ 0x7A)

theorem charBytes_of_ascii {c : Char} (h : c.toNat ≤ 127) : charBytes c = [BitVec.ofNat 8 c.toNat] := by
  have hv : c.val.toNat ≤ 127 := h
  simp only [charBytes, String.utf8EncodeChar, if_pos hv]
  rfl

/-- The letters are below the lead bytes of longer encodings. -/
theorem not_isLetter_leadByte {n : Nat} (h : 192 ≤ n) (hn : n < 256) : isLetter (UInt8.ofNat n).toBitVec = false := by
  rw [isLetter_eq_letterByte, decide_eq_false_iff_not, LetterByte, UInt8.toNat_toBitVec, UInt8.toNat_ofNat',
    Nat.mod_eq_of_lt hn]
  omega

/-- A character that is not ASCII has a lead byte of 192 or more, whether 2, 3 or 4 bytes encode it. -/
theorem exists_charBytes_of_not_ascii {c : Char} (h : ¬ c.toNat ≤ 127) : ∃ b ∈ charBytes c, isLetter b = false := by
  have hv : ¬ c.val.toNat ≤ 127 := h
  simp only [charBytes, String.utf8EncodeChar, if_neg hv]
  split
  · exact ⟨_, List.mem_cons_self, not_isLetter_leadByte (by omega) (by omega)⟩
  split
  · exact ⟨_, List.mem_cons_self, not_isLetter_leadByte (by omega) (by omega)⟩
  · exact ⟨_, List.mem_cons_self, not_isLetter_leadByte (by omega) (by omega)⟩

theorem charBytes_letters_iff (c : Char) : (∀ b ∈ charBytes c, isLetter b = true) ↔ LetterChar c := by
  by_cases h : c.toNat ≤ 127
  · have hnum : (BitVec.ofNat 8 c.toNat).toNat = c.toNat := by
      rw [BitVec.toNat_ofNat, Nat.mod_eq_of_lt (by omega)]
    rw [charBytes_of_ascii h, List.forall_mem_singleton, isLetter_eq_letterByte, decide_eq_true_iff, LetterByte, hnum,
      LetterChar]
  · obtain ⟨b, hb, hletter⟩ := exists_charBytes_of_not_ascii h
    refine iff_of_false (fun hall => ?_) (fun hc => ?_)
    · exact Bool.false_ne_true (hletter.symm.trans (hall b hb))
    · unfold LetterChar at hc
      omega

theorem LetterChar.charBytes_length {c : Char} (h : LetterChar c) : (charBytes c).length = 1 := by
  rw [charBytes_of_ascii (by unfold LetterChar at h; omega), List.length_singleton]

/-- Text of letters has as many bytes as characters. -/
theorem flatMap_charBytes_length {cs : List Char} (h : ∀ c ∈ cs, LetterChar c) :
    (cs.flatMap charBytes).length = cs.length := by
  induction cs with
  | nil => rfl
  | cons c cs ih =>
    obtain ⟨hc, hcs⟩ := List.forall_mem_cons.mp h
    rw [List.flatMap_cons, List.length_append, hc.charBytes_length, ih hcs, List.length_cons, Nat.add_comm]

/-- Settles O11: the bytes are letters just when the characters are, and then there are as many of them. -/
theorem charactersAndBytesAgree : Obligations.CharactersAndBytesAgree := by
  intro cs
  have hletters : (∀ b ∈ cs.flatMap charBytes, isLetter b = true) ↔ ∀ c ∈ cs, LetterChar c := by
    rw [List.forall_mem_flatMap]
    exact forall₂_congr fun c _ => charBytes_letters_iff c
  show (cs.length = 4 ∧ ∀ c ∈ cs, LetterChar c) ↔
    ((cs.flatMap charBytes).length = 4 ∧ ∀ b ∈ cs.flatMap charBytes, isLetter b = true)
  rw [hletters]
  exact and_congr_left fun h => by rw [flatMap_charBytes_length h]

end Sys2Proof.Machine
end

section
/-! SUPPORT. What SEG_DECODE answers on a record, by the record's layout, and the output that an encode leaves
(42_segment R140, R142, R150). -/

namespace Sys2Proof.Machine

/-! ## Records by their layout -/

theorem enc_eq_len_append (g : Segment) :
    enc g = (be32 g.len).toList ++ (g.type.toList ++ g.payload ++ (be32 g.crc).toList) := by
  simp only [enc, List.append_assoc]

theorem fourAt_zero_append (t : Bytes4) (rest : List Byte) : fourAt (t.toList ++ rest) 0 = t :=
  fourAt_append [] rest t

/-- The declared length is what the first four bytes say, whatever follows them. -/
theorem recordLen_be32_append (n : Word) (rest : List Byte) : recordLen ((be32 n).toList ++ rest) = n.toNat := by
  rw [recordLen, fourAt_zero_append, rdBe32_be32]

theorem parseRecord_truncated {n : Word} {rest : List Byte} (h : rest.length < 8 + n.toNat) (mode : ParseMode) :
    parseRecord ((be32 n).toList ++ rest) mode = .error .truncatedInput := by
  have hlen : ((be32 n).toList ++ rest).length < 12 + n.toNat := by
    simp only [List.length_append, List.length_cons, List.length_nil]
    omega
  rw [parseRecord, recordLen_be32_append, if_pos hlen, ite_self]

theorem parseRecord_tooLong {n : Word} {rest : List Byte} (h : 8 + n.toNat < rest.length) :
    parseRecord ((be32 n).toList ++ rest) .exact = .error .lengthMismatch := by
  have hlen : 12 + n.toNat < ((be32 n).toList ++ rest).length := by
    simp only [List.length_append, List.length_cons, List.length_nil]
    omega
  rw [parseRecord, recordLen_be32_append, if_neg (by omega), if_neg (by omega), if_pos ⟨rfl, hlen⟩]

/-- A record by its parts: declared length, the bytes that the checksum is over, checksum (42_segment R140). -/
def recordOf (n : Word) (body : List Byte) (crc : Word) : List Byte := (be32 n).toList ++ body ++ (be32 crc).toList

theorem enc_eq_recordOf (g : Segment) : enc g = recordOf g.len (g.type.toList ++ g.payload) g.crc := by
  simp only [enc, recordOf, List.append_assoc]

theorem recordOf_length (n : Word) (body : List Byte) (crc : Word) :
    (recordOf n body crc).length = 8 + body.length := by
  simp only [recordOf, List.length_append, List.length_cons, List.length_nil]
  omega

theorem recordLen_recordOf (n : Word) (body : List Byte) (crc : Word) :
    recordLen (recordOf n body crc) = n.toNat := by
  rw [recordOf, List.append_assoc, recordLen_be32_append]

/-- The type code and the payload together are the bytes after the length field. -/
theorem segCrc_recordSegment {n crc : Word} {body : List Byte} (h : body.length = 4 + n.toNat) :
    segCrc (recordSegment (recordOf n body crc)).type (recordSegment (recordOf n body crc)).payload = crc32 body := by
  have hlen : 8 ≤ (recordOf n body crc).length := by
    rw [recordOf_length]
    omega
  have hdrop : (recordOf n body crc).drop 4 = body ++ (be32 crc).toList := by
    rw [recordOf, List.append_assoc]
    exact List.drop_left' rfl
  have hbody : ((recordOf n body crc).drop 4).take (4 + n.toNat) = body := by rw [hdrop, ← h, List.take_left]
  rw [List.take_add, List.drop_drop] at hbody
  rw [segCrc, recordSegment, recordPayload, fourAt_toList _ 4 hlen, recordLen_recordOf]
  exact congrArg crc32 hbody

/-- The checksum field is the last four bytes. -/
theorem recordSegment_crc {n crc : Word} {body : List Byte} (h : body.length = 4 + n.toNat) :
    (recordSegment (recordOf n body crc)).crc = crc := by
  have hpre : ((be32 n).toList ++ body).length = 8 + n.toNat := by
    simp only [List.length_append, List.length_cons, List.length_nil]
    omega
  rw [recordSegment, recordLen_recordOf, ← hpre, recordOf,
    ← List.append_nil ((be32 n).toList ++ body ++ (be32 crc).toList), fourAt_append, rdBe32_be32]

theorem parseRecord_wrongChecksum {n crc : Word} {body : List Byte} (h : body.length = 4 + n.toNat)
    (hcrc : crc32 body ≠ crc) : parseRecord (recordOf n body crc) .exact = .error .checksumMismatch := by
  rw [parseRecord, recordLen_recordOf, recordOf_length, segCrc_recordSegment h, recordSegment_crc h,
    if_neg (by omega), if_neg (by omega), if_neg (by omega), if_neg hcrc]

/-! ## One byte of a record changed -/

/-- Changing one byte changes the checksum. -/
theorem crc32_set_ne {s : List Byte} {k : Nat} {b : Byte} (hk : k < s.length) (h : b ≠ s[k]) :
    crc32 (s.set k b) ≠ crc32 s := by
  have hs : s = s.take k ++ s[k] :: s.drop (k + 1) := by
    rw [← List.drop_eq_getElem_cons hk, List.take_append_drop]
  rw [List.set_eq_take_append_cons_drop, if_pos hk]
  conv => rhs; rw [hs]
  exact crc32_ne_of_byte_ne h

/-- Setting a byte of a record between the length and the checksum. -/
theorem recordOf_set (n crc : Word) {body : List Byte} {k : Nat} (b : Byte) (h4 : 4 ≤ k) (hk : k < 4 + body.length) :
    (recordOf n body crc).set k b = recordOf n (body.set (k - 4) b) crc := by
  rw [recordOf, List.set_append_left _ _ (by rwa [List.length_append]), List.set_append_right _ _ h4]
  rfl

theorem recordOf_getD (n crc : Word) {body : List Byte} {k : Nat} (h4 : 4 ≤ k) (hk : k - 4 < body.length) :
    (recordOf n body crc).getD k 0 = body[k - 4] := by
  rw [recordOf, List.append_assoc, List.getD_eq_getElem?_getD, List.getElem?_append_right h4]
  exact congrArg (·.getD 0) ((List.getElem?_append_left hk).trans (List.getElem?_eq_getElem hk))

/-! ## SEG_DECODE on a written region -/

theorem exec_segDecode_of_error {s : State} {bs : List Byte} {e : ErrorCode} (hbs : s.RegionHolds bs)
    (h : parseRecord bs .exact = .error e) : exec .segDecode s = .next (failedWith s e) := by
  simp only [exec, execSegDecode, withRegion_of_holds hbs, segDecodeBody, h]
  rfl

theorem exec_segDecode_enc {s : State} {g : Segment} (hg : g.wf) (hbs : s.RegionHolds (enc g)) :
    exec .segDecode s = .next (succeeded { s with stage := stageOf g }) := by
  have hparse := parseRecord_enc hg [] (mode := .exact) (.inr rfl)
  rw [List.append_nil] at hparse
  simp only [exec, execSegDecode, withRegion_of_holds hbs, segDecodeBody, hparse]
  rfl

/-- Settles O25: the flipped byte is one that the checksum is over, and the checksum itself is as it was. -/
theorem flippedRecordIsChecksumMismatch : Obligations.FlippedRecordIsChecksumMismatch := by
  intro s g k j hg hk4 hk hj hbs
  refine exec_segDecode_of_error hbs ?_
  have hlen : (g.type.toList ++ g.payload).length = 4 + g.len.toNat := by
    rw [List.length_append, hg.lenIsPayloadLength]
    rfl
  have hmid : k - 4 < (g.type.toList ++ g.payload).length := by
    rw [hlen, hg.lenIsPayloadLength]
    omega
  rw [enc_eq_recordOf, recordOf_set _ _ _ hk4 (by omega), recordOf_getD _ _ hk4 hmid]
  refine parseRecord_wrongChecksum (by rw [List.length_set, hlen]) ?_
  rw [hg.crcIsRecomputed]
  exact crc32_set_ne hmid (xor_bit_ne _ hj)

/-- Settles O26: the declared length stays, and the record is one byte short of it or longer. -/
theorem resizedRecordIsRejected : Obligations.ResizedRecordIsRejected := by
  intro s g hg
  have hlen : (g.type.toList ++ g.payload ++ (be32 g.crc).toList).length = 8 + g.len.toNat := by
    simp only [List.length_append, List.length_cons, List.length_nil, hg.lenIsPayloadLength]
    omega
  refine ⟨fun hbs => exec_segDecode_of_error hbs ?_, fun extra hextra hbs => exec_segDecode_of_error hbs ?_⟩
  · rw [enc_eq_len_append, List.dropLast_append_of_ne_nil (List.ne_nil_of_length_pos (by omega))]
    exact parseRecord_truncated (by rw [List.length_dropLast]; omega) _
  · have hpos : 0 < extra.length := List.length_pos_iff.mpr hextra
    rw [enc_eq_len_append, List.append_assoc]
    exact parseRecord_tooLong (by rw [List.length_append]; omega)

/-! ## The output of an encode -/

theorem outputIs_writeBytes (s : State) {img : List Byte} {n : Word} (hn : n.toNat = img.length) :
    OutputIs (succeeded { s with obuf := Memory.writeBytes s.obuf 0 img, outLen := n }) img := by
  refine ⟨hn.symm, fun k hk => ?_⟩
  show Memory.read (Memory.writeBytes s.obuf 0 img) k = some img[k]
  rw [Memory.read_writeBytes_zero, List.getElem?_eq_getElem hk, Option.some_or]

/-- The output of a state is one byte sequence. -/
theorem OutputIs.unique {t : State} {bs bs' : List Byte} (h : OutputIs t bs) (h' : OutputIs t bs') : bs = bs' := by
  refine List.ext_getElem (h.1.trans h'.1.symm) fun k hk hk' => ?_
  exact Option.some.inj ((h.2 k hk).symm.trans (h'.2 k hk'))

theorem exec_segEncode_of_fits {s : State} (hp : s.params.wf = true) (hvalid : s.stage.valid = true)
    (hseg : s.stage.seg.wf) (hfits : 12 + s.stage.seg.len.toNat ≤ s.params.obufSize) :
    ∃ t, exec .segEncode s = .next t ∧ OutputIs t (enc s.stage.seg) := by
  rw [exec_segEncode, if_pos hvalid, if_pos hfits]
  refine ⟨_, rfl, outputIs_writeBytes s ?_⟩
  rw [regOfNat_toNat_of_fits hp hfits, enc_length_of_wf hseg]

/-- Settles O24: the output is the staged segment's record, and that parses back to the segment. -/
theorem segmentRoundTrip : Obligations.SegmentRoundTrip := by
  intro s hp hvalid hseg hfits
  obtain ⟨t, ht, hout⟩ := exec_segEncode_of_fits hp hvalid hseg hfits
  refine ⟨t, ht, ⟨_, hout⟩, fun u bs hbs hu => ?_⟩
  rw [hbs.unique hout] at hu
  have hstage : stageOf s.stage.seg = s.stage := by rw [stageOf, ← hvalid]
  rw [exec_segDecode_enc hseg hu, hstage]

end Sys2Proof.Machine
end

section
/-! SUPPORT. What CON_DECODE accepts and what CON_ENCODE leaves, and the round trips of the container
(43_container R172, R174, R178 to R180). -/

namespace Sys2Proof.Machine

/-- Settles O29: the checks of CON_DECODE have other errors, and so has the region check. -/
theorem conDecodeNeverLengthMismatch : Obligations.ConDecodeNeverLengthMismatch := by
  intro s t hfires h
  cases h
  rcases withRegion_cases (rfl : withRegion s conDecodeBody = _) with ⟨-, hend⟩ | ⟨bs, -, hend⟩ | ⟨hin, hun, -⟩
  · rw [hend]
    exact nofun
  · rw [hend]
    cases hbody : conDecodeBody s bs with
    | ok v => exact nofun
    | error e =>
      rintro ⟨⟩
      exact absurd (conDecodeBody_error_mem hbody) (by decide)
  · exact absurd ⟨by decide, of_decide_eq_true hin, regionUnwritten_of_regionWritten_eq_false hun⟩ hfires

/-- What CON_DECODE accepts is the image of the store that it leaves. -/
theorem conDecodeBody_ok {s v : State} {bs : List Byte} (h : conDecodeBody s bs = .ok v) :
    ∃ gs, bs = imageOf s.params gs ∧ v = { s with store := gs } := by
  by_cases hshort : bs.length < 8
  · rw [conDecodeBody_short s hshort] at h
    cases h
  by_cases hsig : bs.take 8 = s.params.sig
  · obtain ⟨gs, rest, hwf, rfl, hend⟩ := exists_imageOf_append hsig
    by_cases hrest : rest = []
    · rw [hrest, List.append_nil, conDecodeBody_imageOf s hwf] at h
      split at h <;> cases h
      exact ⟨gs, by rw [hrest, List.append_nil], rfl⟩
    · obtain ⟨e, he⟩ := hend.resolve_left hrest
      rw [conDecodeBody_imageOf_append_error s hwf hrest he] at h
      cases h
  · rw [conDecodeBody_wrongSignature (Nat.le_of_not_lt hshort) hsig] at h
    cases h

theorem exec_conDecode_imageOf {s : State} {gs : List Segment} (hwf : ∀ g ∈ gs, g.wf) (hfits : storeFits s.params gs)
    (hbs : s.RegionHolds (imageOf s.params gs)) :
    exec .conDecode s = .next (succeeded { s with store := gs }) := by
  simp only [exec, execConDecode, withRegion_of_holds hbs, conDecodeBody_imageOf s hwf,
    if_pos ((decodedFits_iff_storeFits s.params hwf).mpr hfits)]
  rfl

theorem outputIs_conEncode {s : State} (hp : s.params.wf = true)
    (hfits : (imageOf s.params s.store).length ≤ s.params.obufSize) :
    OutputIs (succeeded { s with
      obuf := Memory.writeBytes s.obuf 0 (imageOf s.params s.store),
      outLen := regOfNat (imageOf s.params s.store).length }) (imageOf s.params s.store) :=
  outputIs_writeBytes s (regOfNat_toNat_of_fits hp hfits)

theorem exec_conEncode_of_fits {s : State} (hp : s.params.wf = true)
    (hfits : (imageOf s.params s.store).length ≤ s.params.obufSize) :
    ∃ t, exec .conEncode s = .next t ∧ OutputIs t (imageOf s.params s.store) := by
  rw [exec_conEncode, if_pos hfits]
  exact ⟨_, rfl, outputIs_conEncode hp hfits⟩

/-- CON_ENCODE succeeds only where the image fits. -/
theorem outputIs_of_conEncode_success {s t : State} (hp : s.params.wf = true) (h : exec .conEncode s = .next t)
    (herr : t.err = false) : OutputIs t (imageOf s.params s.store) := by
  rw [exec_conEncode] at h
  cases h
  split at herr
  · rename_i hfits
    rw [if_pos hfits]
    exact outputIs_conEncode hp hfits
  · cases herr

/-- Settles O33: the output is the store's image, and that parses back to the store. -/
theorem containerRoundTrip : Obligations.ContainerRoundTrip := by
  intro s hp hwf hstore hfits
  obtain ⟨t, ht, hout⟩ := exec_conEncode_of_fits hp hfits
  refine ⟨t, ht, ⟨_, hout⟩, fun u bs hu hbs hregion => ?_⟩
  rw [hbs.unique hout, ← hu] at hregion
  exact exec_conDecode_imageOf hwf (hu ▸ hstore) hregion

/-- CON_DECODE succeeds only on the image of the store that it leaves. -/
theorem image_of_conDecode_success {s t : State} {bs : List Byte} (hbs : s.RegionHolds bs)
    (h : exec .conDecode s = .next t) (herr : t.err = false) :
    bs = imageOf t.params t.store ∧ t.params = s.params := by
  simp only [exec, execConDecode, withRegion_of_holds hbs, Host.Outcome.next.injEq] at h
  rcases complete_cases h with ⟨v, hbody, rfl⟩ | ⟨e, -, rfl⟩
  · obtain ⟨gs, himage, rfl⟩ := conDecodeBody_ok hbody
    exact ⟨himage, rfl⟩
  · cases herr

/-- Settles O34: an accepted region is the image of the store that CON_DECODE leaves, which CON_ENCODE puts out. -/
theorem decodedImageReencodes : Obligations.DecodedImageReencodes := by
  intro s t u bs hp hbs hdecode hok hencode hok'
  obtain ⟨rfl, hparams⟩ := image_of_conDecode_success hbs hdecode hok
  exact outputIs_of_conEncode_success (hparams ▸ hp) hencode hok'

/-- Settles O35: the second CON_ENCODE has the same store and parameters as the first. -/
theorem encodeDecodeEncodeIsIdempotent : Obligations.EncodeDecodeEncodeIsIdempotent := by
  rintro s u bs hp hwf hstore hu rfl hfits hregion
  obtain ⟨t, ht, hout⟩ := exec_conEncode_of_fits hp hfits
  have hdecode : exec .conDecode u = .next (succeeded { u with store := s.store }) :=
    exec_conDecode_imageOf hwf (hu ▸ hstore) (hu ▸ hregion)
  obtain ⟨w, hw, hout'⟩ := exec_conEncode_of_fits (s := succeeded { u with store := s.store }) (hu ▸ hp) (hu ▸ hfits)
  have himage : OutputIs w (imageOf s.params s.store) := hu ▸ hout'
  exact ⟨t, _, w, ht, hdecode, hw, hout, himage, BitVec.eq_of_toNat_eq (himage.1.symm.trans hout.1)⟩

end Sys2Proof.Machine
end

section
/-! SUPPORT. Which accesses are bus errors, place by place (20_memory R51 to R55). -/

namespace Sys2Proof.Machine

/-- The bus accepted an access: it is over without a bus error, or it starts a command. -/
def Accepted (s : State) (r : BusResult) : Prop :=
  (∃ t, r = .done t ∧ t.resp ≠ .error ∧ t.faults = s.faults) ∨ ∃ w, r = .command w s.respondDone

/-- An access is one that the rule lists, and a bus error, or neither. -/
def ErrsAsListed (s : State) (a : Access) : Prop :=
  (IllegalAccess s.params a ∧ s.access a = .done s.busError) ∨
    (¬ IllegalAccess s.params a ∧ Accepted s (s.access a))

theorem accepted_respondData (s t : State) (w : Word) (h : t.faults = s.faults) :
    Accepted s (.done (t.respondData w)) :=
  .inl ⟨_, rfl, nofun, h⟩

theorem accepted_respondDone (s t : State) (h : t.faults = s.faults) : Accepted s (.done t.respondDone) :=
  .inl ⟨_, rfl, nofun, h⟩

theorem accepted_readByte (s : State) (m : Memory) (i : Nat) : Accepted s (.done (s.readByte m i)) :=
  accepted_respondData s _ _ rfl

theorem readWord_accepted {s : State} {m : Memory} {size i : Nat} (h : i + 4 ≤ size) :
    Accepted s (.done (s.readWord m size i)) := by
  rw [State.readWord, if_pos h]
  exact accepted_respondData s _ _ rfl

theorem readWord_busError {s : State} {m : Memory} {size i : Nat} (h : ¬ i + 4 ≤ size) :
    s.readWord m size i = s.busError := if_neg h

/-- The registers that a host write reaches stand at the six offsets listed (10_state R22). -/
theorem regOffset_mem_iff (r : CtrlReg) :
    regOffset r ∈ [0x00, 0x0C, 0x10, 0x14, 0x18, 0x1C] ↔ regAccess r ≠ .readOnly := by
  cases r <;> decide

theorem State.writeReg_faults (s : State) (r : CtrlReg) (w : Word) : (s.writeReg r w).faults = s.faults := by
  cases r <;> rfl

theorem writeCtrl_readOnly (s : State) {r : CtrlReg} (w : Word) (h : regAccess r = .readOnly) :
    s.writeCtrl (regOffset r) w = .done s.busError := by
  simp only [State.writeCtrl, regAt_regOffset, h]

theorem writeCtrl_accepted (s : State) {r : CtrlReg} (w : Word) (h : regAccess r ≠ .readOnly) :
    Accepted s (s.writeCtrl (regOffset r) w) := by
  cases hright : regAccess r with
  | writeOnly => exact .inr ⟨w, writeCtrl_writeOnly s w hright⟩
  | readOnly => exact absurd hright h
  | readWrite =>
    rw [writeCtrl_readWrite s w hright]
    exact accepted_respondDone s _ (State.writeReg_faults s r w)

theorem read8_errsAsListed {s : State} (hw : s.params.wf = true) (a : Word) : ErrsAsListed s (.read8 a) := by
  unfold ErrsAsListed IllegalAccess InBuffer
  rcases targetOf_cases hw a with ⟨h, ht⟩ | ⟨h, h', ht⟩ | ⟨h, h', ht⟩ | ⟨h, hi, ho, ht⟩ <;>
    simp only [State.access, ht]
  · exact .inl ⟨by omega, trivial⟩
  · exact .inr ⟨by omega, accepted_readByte s _ _⟩
  · exact .inr ⟨by omega, accepted_readByte s _ _⟩
  · exact .inl ⟨by omega, trivial⟩

theorem write8_errsAsListed {s : State} (hw : s.params.wf = true) (a : Word) (b : Byte) :
    ErrsAsListed s (.write8 a b) := by
  unfold ErrsAsListed IllegalAccess InBuffer
  rcases targetOf_cases hw a with ⟨h, ht⟩ | ⟨h, h', ht⟩ | ⟨h, h', ht⟩ | ⟨h, hi, ho, ht⟩ <;>
    simp only [State.access, ht]
  · exact .inl ⟨by omega, trivial⟩
  · exact .inr ⟨by omega, accepted_respondDone s _ rfl⟩
  · have hsizes := params_sizes hw
    exact .inl ⟨by omega, trivial⟩
  · exact .inl ⟨by omega, trivial⟩

theorem read32_errsAsListed {s : State} (hw : s.params.wf = true) (a : Word) : ErrsAsListed s (.read32 a) := by
  have hsizes := params_sizes hw
  unfold ErrsAsListed IllegalAccess InBuffer
  by_cases h4 : a.toNat % 4 = 0
  case neg => exact .inl ⟨.inl h4, if_neg h4⟩
  rcases targetOf_cases hw a with ⟨h, ht⟩ | ⟨h, h', ht⟩ | ⟨h, h', ht⟩ | ⟨h, hi, ho, ht⟩ <;>
    simp only [State.access, if_pos h4, ht]
  · by_cases hreg : a.toNat ≤ 0x4C
    · obtain ⟨r, hr, -⟩ := regAt_of_le hreg h4
      simp only [State.readCtrl, hr]
      exact .inr ⟨by omega, accepted_respondData s _ _ rfl⟩
    · simp only [State.readCtrl, regAt_of_gt (Nat.lt_of_not_le hreg)]
      exact .inl ⟨by omega, trivial⟩
  · by_cases hin : a.toNat - 0x10000000 + 4 ≤ s.params.ibufSize
    · exact .inr ⟨by omega, readWord_accepted hin⟩
    · exact .inl ⟨by omega, congrArg _ (readWord_busError hin)⟩
  · by_cases hin : a.toNat - 0x20000000 + 4 ≤ s.params.obufSize
    · exact .inr ⟨by omega, readWord_accepted hin⟩
    · exact .inl ⟨by omega, congrArg _ (readWord_busError hin)⟩
  · exact .inl ⟨by omega, trivial⟩

/-- In CTRL a word write is a bus error except at the six registers that the host may write. -/
theorem write32_ctrl_errsAsListed {s : State} {a : Word} (w : Word) (hctrl : a.toNat < 0x100) (h4 : a.toNat % 4 = 0) :
    ErrsAsListed s (.write32 a w) := by
  have hnot : ¬ InBuffer 0x10000000 s.params.ibufSize 4 a := by
    unfold InBuffer
    omega
  have haccess : s.access (.write32 a w) = s.writeCtrl a.toNat w := by
    simp only [State.access, if_pos h4, targetOf_ctrl s.params hctrl]
  have hlisted : IllegalAccess s.params (.write32 a w) ↔ a.toNat ∉ [0x00, 0x0C, 0x10, 0x14, 0x18, 0x1C] := by
    simp only [IllegalAccess, h4, hnot, or_false, ne_eq, not_true_eq_false, false_or]
  unfold ErrsAsListed
  rw [haccess, hlisted, Classical.not_not]
  by_cases hreg : a.toNat ≤ 0x4C
  · obtain ⟨r, -, hoff⟩ := regAt_of_le hreg h4
    rw [hoff, regOffset_mem_iff]
    by_cases hright : regAccess r = .readOnly
    · exact .inl ⟨fun hwritable => hwritable hright, writeCtrl_readOnly s w hright⟩
    · exact .inr ⟨hright, writeCtrl_accepted s w hright⟩
  · refine .inl ⟨fun hmem => hreg ?_, ?_⟩
    · exact (by decide : ∀ n ∈ [0x00, 0x0C, 0x10, 0x14, 0x18, 0x1C], n ≤ 0x4C) _ hmem
    · simp only [State.writeCtrl, regAt_of_gt (Nat.lt_of_not_le hreg)]

theorem writeIbufWord_accepted {s : State} {i : Nat} {w : Word} (h : i + 4 ≤ s.params.ibufSize) :
    Accepted s (.done (s.writeIbufWord i w)) := by
  rw [State.writeIbufWord, if_pos h]
  exact accepted_respondDone s _ rfl

theorem write32_errsAsListed {s : State} (hw : s.params.wf = true) (a w : Word) : ErrsAsListed s (.write32 a w) := by
  have hsizes := params_sizes hw
  by_cases h4 : a.toNat % 4 = 0
  case neg => exact .inl ⟨.inl h4, if_neg h4⟩
  by_cases hctrl : a.toNat < 0x100
  · exact write32_ctrl_errsAsListed w hctrl h4
  have hoff : a.toNat ∉ [0x00, 0x0C, 0x10, 0x14, 0x18, 0x1C] := fun hmem =>
    hctrl ((by decide : ∀ n ∈ [0x00, 0x0C, 0x10, 0x14, 0x18, 0x1C], n < 0x100) _ hmem)
  unfold ErrsAsListed IllegalAccess InBuffer
  rcases targetOf_cases hw a with ⟨h, -⟩ | ⟨h, h', ht⟩ | ⟨h, h', ht⟩ | ⟨h, hi, ho, ht⟩
  · exact absurd h hctrl
  all_goals simp only [State.access, if_pos h4, ht]
  · by_cases hin : a.toNat - 0x10000000 + 4 ≤ s.params.ibufSize
    · exact .inr ⟨by omega, writeIbufWord_accepted hin⟩
    · exact .inl ⟨.inr (not_or.mpr ⟨hoff, by omega⟩), congrArg _ (if_neg hin)⟩
  · exact .inl ⟨.inr (not_or.mpr ⟨hoff, by omega⟩), trivial⟩
  · exact .inl ⟨.inr (not_or.mpr ⟨hoff, by omega⟩), trivial⟩

theorem access_errsAsListed {s : State} (hw : s.params.wf = true) (a : Access) : ErrsAsListed s a := by
  cases a with
  | read8 addr => exact read8_errsAsListed hw addr
  | read32 addr => exact read32_errsAsListed hw addr
  | write8 addr b => exact write8_errsAsListed hw addr b
  | write32 addr w => exact write32_errsAsListed hw addr w
  | otherWidth wr addr => exact .inl ⟨trivial, rfl⟩

theorem access_of_illegal {s : State} (hw : s.params.wf = true) {a : Access} (ha : IllegalAccess s.params a) :
    s.access a = .done s.busError := by
  rcases access_errsAsListed hw a with ⟨-, herr⟩ | ⟨hlegal, -⟩
  · exact herr
  · exact absurd ha hlegal

theorem access_of_legal {s : State} (hw : s.params.wf = true) {a : Access} (ha : ¬ IllegalAccess s.params a) :
    Accepted s (s.access a) := by
  rcases access_errsAsListed hw a with ⟨hillegal, -⟩ | ⟨-, haccepted⟩
  · exact absurd hillegal ha
  · exact haccepted

/-- A CMD write answers and leaves the BusError record alone, whatever its command does. -/
theorem runCommand_resp_busError {w : Word} {s t : State} (h : runCommand w s = .next t) :
    t.resp = s.resp ∧ t.faults.busError = s.faults.busError := by
  rcases runCommand_cases h with ⟨i, -, hexec⟩ | ⟨-, rfl⟩
  · exact ⟨(exec_frame hexec).resp, (exec_frame hexec).busError⟩
  · exact ⟨rfl, rfl⟩

/-- The step of an access that is no bus error. -/
theorem step_of_accepted {s : State} {es : List HostEvent} {a : Access} (hp : s.pending = .access a :: es)
    (ha : Accepted { s with pending := es } (State.access { s with pending := es } a)) :
    ∃ t, step s = .next t ∧ t.resp ≠ .error ∧ t.faults.busError = s.faults.busError := by
  rw [step_access hp, runAccess]
  rcases ha with ⟨t, hdone, hresp, hfaults⟩ | ⟨w, hcommand⟩
  · rw [hdone]
    exact ⟨t, rfl, hresp, congrArg FaultSet.busError hfaults⟩
  · rw [hcommand]
    obtain ⟨t, ht⟩ := runCommand_next w (State.respondDone { s with pending := es })
    obtain ⟨hresp, hbus⟩ := runCommand_resp_busError ht
    exact ⟨t, ht, hresp ▸ nofun, hbus⟩

/-- Settles O45: an access is a bus error just when the rule lists it, and no event but the reset clears the record. -/
theorem busErrorsAreThoseListed : Obligations.BusErrorsAreThoseListed := by
  intro s es a hw hp
  refine ⟨fun ha => step_of_done hp (access_of_illegal (s := { s with pending := es }) hw ha),
    fun ha => step_of_accepted hp (access_of_legal (s := { s with pending := es }) hw ha), fun hbus t h => ?_⟩
  exact keptByEvents_busError.after_step hbus (fun hreset => by rw [hp] at hreset; cases hreset) h

end Sys2Proof.Machine
end

section
/-! SUPPORT. The host's lines as the steps of their accesses, and a word write followed by a byte read (20_memory R58,
30_encoding R72, R76, R77). -/

namespace Sys2Proof.Machine

/-- Settles O2: the CMD write's step, and the same for the write that `withFetchWord` places. -/
theorem stepRunsTheDecodedCommand : Obligations.StepRunsTheDecodedCommand := by
  refine ⟨fun s es w i hp hi => step_write_cmd hp hi, fun s w i hi => ?_⟩
  have hlt : tableWord 32 w < 2 ^ 32 := Nat.mod_lt w (by decide)
  rw [decodeTableWord, if_pos hlt] at hi
  exact step_write_cmd (s := s.withFetchWord 32 w) rfl hi

/-- Settles O3: four words of the table and three that are not in it, decoded. -/
theorem tableWordsDecode : Obligations.TableWordsDecode := by
  unfold Obligations.TableWordsDecode
  decide

/-- The byte read of an IBUF byte that has been written. -/
theorem step_read8_ibuf {s : State} {es : List HostEvent} {i : Nat} {b : Byte}
    (hp : s.pending = .access (.read8 (BitVec.ofNat 32 (0x10000000 + i))) :: es) (hw : s.params.wf = true)
    (hi : i < s.params.ibufSize) (hb : Memory.read s.ibuf i = some b) :
    step s = .next { s with pending := es, resp := .data (b.setWidth 32) } :=
  (step_readByte hp (access_read8_ibuf (s := { s with pending := es }) hw hi)).1 b hb

/-- Settles O46: the second step reads the byte that the first wrote, the word's lane for it. -/
theorem wordWriteThenByteRead : Obligations.WordWriteThenByteRead := by
  intro s es w i k hw h4 hk hi hp
  rw [Nat.add_assoc] at hp
  have hwrite := step_of_done hp (access_write32_ibuf (s := { s with pending := _ }) w hw h4 hi)
  have hin : i + k < s.params.ibufSize := by omega
  have hlane : Memory.read (Memory.writeBytes s.ibuf i (be32 w).toList) (i + k)
      = some (w.extractLsb' (8 * (3 - k)) 8) := by
    rw [Memory.read_writeBytes_be32, if_pos (by omega), Nat.add_sub_cancel_left]
  have hread := step_read8_ibuf (es := es) (s := State.respondDone { s with
    pending := .access (.read8 (BitVec.ofNat 32 (0x10000000 + (i + k)))) :: es
    ibuf := Memory.writeBytes s.ibuf i (be32 w).toList }) rfl hw hin hlane
  exact ⟨_, (run_succ hwrite 1).trans (run_succ hread 0), rfl, rfl⟩

/-! ## The lines of 30_encoding R76 -/

theorem step_write_readOnly {s : State} {es : List HostEvent} {r : CtrlReg} {w : Word}
    (hp : s.pending = .access (.write32 (BitVec.ofNat 32 (regOffset r)) w) :: es) (hr : regAccess r = .readOnly) :
    step s = .next { s with pending := es, resp := .error, faults := { s.faults with busError := true } } :=
  step_of_done hp ((access_write32_reg _ r w).trans (writeCtrl_readOnly _ w hr))

/-- The address of a host line's access to IBUF. -/
theorem busAddress_ibuf {p : Params} (hp : p.wf = true) {i : Nat} (hi : i < p.ibufSize) :
    busAddress (ibufBase + i) = BitVec.ofNat 32 (0x10000000 + i) := by
  obtain ⟨-, hibuf, -, -⟩ := params_sizes hp
  exact busAddress_of_lt (by rw [ibufBase]; omega)

/-- The address of a host line's access to OBUF. -/
theorem busAddress_obuf {p : Params} (hp : p.wf = true) {i : Nat} (hi : i < p.obufSize) :
    busAddress (obufBase + i) = BitVec.ofNat 32 (0x20000000 + i) := by
  obtain ⟨-, -, -, hobuf⟩ := params_sizes hp
  exact busAddress_of_lt (by rw [obufBase]; omega)

theorem runs_one {s t : State} (h : step s = .next t) : Runs 1 s t := run_succ h 0

theorem Runs.cons {n : Nat} {s t u : State} (h : step s = .next t) (ht : Runs n t u) : Runs (n + 1) s u :=
  (run_succ h n).trans ht

/-- The steps of an `ldb` line write its bytes, one a step. -/
theorem runs_ldb {s : State} {es : List HostEvent} {i : Nat} {b : Byte} {bs : List Byte} (hw : s.params.wf = true)
    (hi : i + (b :: bs).length ≤ s.params.ibufSize)
    (hp : s.pending = (ldbAccesses i (b :: bs)).map .access ++ es) :
    Runs (b :: bs).length s { s with
      pending := es, resp := .done, ibuf := Memory.writeBytes s.ibuf i (b :: bs) } := by
  induction bs generalizing s i b with
  | nil =>
    rw [List.length_singleton] at hi
    have hin : i < s.params.ibufSize := by omega
    rw [ldbAccesses, busAddress_ibuf hw hin] at hp
    exact runs_one (step_of_done hp (access_write8_ibuf (s := { s with pending := es }) b hw hin))
  | cons c bs ih =>
    rw [List.length_cons] at hi
    have hin : i < s.params.ibufSize := by omega
    rw [ldbAccesses, busAddress_ibuf hw hin] at hp
    have hstep := step_of_done hp (access_write8_ibuf (s := { s with pending := _ }) b hw hin)
    have hrest := ih (s := State.respondDone { s with
      pending := (ldbAccesses (i + 1) (c :: bs)).map .access ++ es, ibuf := Memory.write s.ibuf i b })
      (i := i + 1) (b := c) hw (by simp only [State.respondDone_params]; omega) rfl
    exact Runs.cons hstep hrest

/-- The step of an `rdb` line's next access. -/
theorem step_rdb {s : State} {es : List HostEvent} {i n : Nat} (hw : s.params.wf = true)
    (hi : i + (n + 1) ≤ s.params.obufSize) (hp : s.pending = (rdbAccesses i (n + 1)).map .access ++ es) :
    step s = .next (State.readByte { s with pending := (rdbAccesses (i + 1) n).map .access ++ es } s.obuf i) := by
  have hin : i < s.params.obufSize := by omega
  rw [rdbAccesses, busAddress_obuf hw hin] at hp
  exact step_of_done hp (access_read8_obuf (s := { s with pending := _ }) hw hin)

/-- The steps of an `rdb` line read its bytes, one a step. -/
theorem runs_rdb {s : State} {es : List HostEvent} {i n k : Nat} (hw : s.params.wf = true)
    (hi : i + n ≤ s.params.obufSize) (hk : k < n) (hp : s.pending = (rdbAccesses i n).map .access ++ es) :
    ∃ (b : Byte) (d : Nat), Runs (k + 1) s { s with
        pending := (rdbAccesses (i + (k + 1)) (n - (k + 1))).map .access ++ es
        resp := .data (b.setWidth 32), draws := d } ∧
      ∀ c, Memory.read s.obuf (i + k) = some c → b = c := by
  obtain ⟨n, rfl⟩ : ∃ m, n = m + 1 := ⟨n - 1, by omega⟩
  have hstep := step_rdb hw hi hp
  induction k generalizing s i n with
  | zero =>
    refine ⟨(Memory.draw s.obuf i s.draws).1, (Memory.draw s.obuf i s.draws).2, runs_one hstep, fun c hc => ?_⟩
    have hread : Memory.read s.obuf i = some c := hc
    rw [Memory.draw, hread]
  | succ k ih =>
    obtain ⟨n, rfl⟩ : ∃ m, n = m + 1 := ⟨n - 1, by omega⟩
    have hi' : (i + 1) + (n + 1) ≤ s.params.obufSize := by omega
    obtain ⟨b, d, hrun, hread⟩ := ih
      (s := State.readByte { s with pending := (rdbAccesses (i + 1) (n + 1)).map .access ++ es } s.obuf i)
      (i := i + 1) hw n hi' (by omega) rfl (step_rdb hw hi' rfl)
    have hidx : i + 1 + (k + 1) = i + (k + 1 + 1) := by omega
    have hcount : n + 1 + 1 - (k + 1 + 1) = n + 1 - (k + 1) := by omega
    rw [hidx] at hrun
    rw [hcount]
    refine ⟨b, d, Runs.cons hstep hrun, fun c hc => hread c ?_⟩
    rwa [Nat.add_assoc, Nat.add_comm 1 k]

/-- Settles O60: each line is the steps of its accesses, and a pseudo-instruction is its lines. -/
theorem hostLinesDoWhatTheyStandFor : Obligations.HostLinesDoWhatTheyStandFor := by
  refine ⟨fun s es w => ⟨fun hp => ?_, fun hp => ?_, fun hp => ?_, fun hp => ?_, fun hp => ?_, fun r hr hp => ?_,
    fun hp => ⟨fun i hi => ?_, fun hnone => ?_⟩⟩, fun s es r hp => ?_, fun s es l i bs hw hi hne hl hp => ?_,
    fun s es i n k hw hi hk hp => ?_, fun s es c hp => ?_,
    fun s es => ⟨fun t hp => ?_, fun off len hp => ?_, fun c hp => ?_, fun k hp => ?_⟩⟩
  · exact step_write_readWrite (r := .typeArg) hp rfl
  · exact step_write_readWrite (r := .srcOff) hp rfl
  · exact step_write_readWrite (r := .srcLen) hp rfl
  · exact step_write_readWrite (r := .index) hp rfl
  · exact step_write_readWrite (r := .crcExpect) hp rfl
  · exact step_write_readOnly hp hr
  · exact step_write_cmd hp hi
  · exact step_write_illegal hp hnone
  · exact step_of_done hp (access_read32_reg _ r)
  · have hline : l = .ldb i bs := hl.elim id (fun h => (List.cons.inj h).1)
    subst hline
    obtain ⟨b, bs, rfl⟩ := List.exists_cons_of_ne_nil hne
    refine ⟨_, runs_ldb hw hi ?_, fun j => Memory.read_writeBytes s.ibuf i j (b :: bs)⟩
    rwa [State.LinesToCome, List.flatMap_singleton] at hp
  · rw [State.LinesToCome, List.flatMap_singleton] at hp
    exact runs_rdb hw hi hk hp
  · exact step_write_cmd hp (decode_encode c)
  · exact step_write_readWrite (r := .typeArg) hp rfl
  · exact Runs.cons (step_write_readWrite (r := .srcOff) hp rfl)
      (runs_one (step_write_readWrite (r := .srcLen) rfl rfl))
  · exact step_write_readWrite (r := .crcExpect) hp rfl
  · exact step_write_readWrite (r := .index) hp rfl

end Sys2Proof.Machine
end

section
/-! SUPPORT. The register map, the words that ERRCODE, STATUS and the constant registers read, and the platform's reset
(10_state R22 to R39, 60_exceptions R200, 70_reset R220). -/

namespace Sys2Proof.Machine

/-! ## ERRCODE and STATUS -/

/-- Every value of ERRCODE.CODE, NONE first (60_exceptions R200). -/
def allErrorCodes : List (Option ErrorCode) :=
  [none, some .formatError, some .typeCodeError, some .lengthMismatch, some .checksumMismatch, some .truncatedInput,
   some .signatureMismatch, some .illegalCommand, some .regionError, some .noStage, some .indexOutOfRange,
   some .capacityExceeded, some .outputOverflow]

theorem mem_allErrorCodes (e : Option ErrorCode) : e ∈ allErrorCodes := by
  match e with
  | none => decide
  | some e => cases e <;> decide

/-- No two codes have the same number, so ERRCODE tells the error. -/
theorem errorWord_injective {e e' : Option ErrorCode} (h : (errorByte e).setWidth 32 = (errorByte e').setWidth 32) :
    e = e' := by
  have hdistinct : ∀ e ∈ allErrorCodes, ∀ e' ∈ allErrorCodes,
      (errorByte e).setWidth 32 = (errorByte e').setWidth 32 → e = e' := by decide
  exact hdistinct e (mem_allErrorCodes e) e' (mem_allErrorCodes e') h

/-- Settles O40: the table row by row, and the words of its rows are distinct. -/
theorem errorCodeNumbers : Obligations.ErrorCodeNumbers := by
  refine ⟨fun s => ?_, fun s t h => errorWord_injective h⟩
  rw [State.readReg_errcode]
  cases s.errcode with
  | none => rfl
  | some e => cases e <;> rfl

/-- The three flags of STATUS, and zeros above them (10_state R24). -/
theorem statusWord_getLsbD (s : State) (k : Nat) :
    s.statusWord.getLsbD k = [s.err, s.stage.valid, s.removed].getD k false := by
  match k with
  | 0 | 1 | 2 =>
    simp only [State.statusWord, BitVec.getLsbD_setWidth, BitVec.getLsbD_append]
    simp
  | k + 3 =>
    rw [State.statusWord, BitVec.getLsbD_setWidth, BitVec.getLsbD_of_ge _ _ (by omega), Bool.and_false]
    rfl

/-- Settles O47: each bit of STATUS by its place. -/
theorem statusWordLayout : Obligations.StatusWordLayout := by
  intro s
  simp only [State.readReg_status, statusWord_getLsbD]
  refine ⟨rfl, rfl, rfl, fun k hk => ?_⟩
  rw [List.getD_eq_getElem?_getD, List.getElem?_eq_none hk, Option.getD_none]

/-! ## The constant registers -/

theorem Bytes4.toList_injective {t t' : Bytes4} (h : t.toList = t'.toList) : t = t' := by
  cases t
  cases t'
  simpa using h

/-- Settles O49: the constant registers read the parameters, and the default signature is packed half by half. -/
theorem constantRegisters_readParams : Obligations.ConstantRegisters := by
  refine ⟨fun s hs => ?_, fun s hsig => ?_⟩
  · obtain ⟨hibuf, hobuf⟩ := State.readReg_sizes_toNat hs
    exact ⟨s.readReg_id, hibuf, hobuf, s.readReg_sigHi, s.readReg_sigLo⟩
  · obtain ⟨hhi, hlo⟩ := List.append_inj (s₂ := [0x89, 0x50, 0x4E, 0x47]) (t₂ := [0x0D, 0x0A, 0x1A, 0x0A]) hsig rfl
    have hhi : s.params.sigHi = ⟨0x89, 0x50, 0x4E, 0x47⟩ := Bytes4.toList_injective hhi
    have hlo : s.params.sigLo = ⟨0x0D, 0x0A, 0x1A, 0x0A⟩ := Bytes4.toList_injective hlo
    rw [State.readReg_sigHi, State.readReg_sigLo, hhi, hlo]
    decide

/-! ## The register map -/

theorem regAt_eq_some_iff {off : Nat} {r : CtrlReg} : regAt off = some r ↔ off = regOffset r :=
  ⟨regOffset_of_regAt, fun h => h ▸ regAt_regOffset r⟩

/-- The rows of the register map are each register with its offset and its access right (10_state R22). -/
theorem mem_registerMap_iff {off : Nat} {r : CtrlReg} {a : RegAccess} :
    (off, r, a) ∈ registerMap ↔ off = regOffset r ∧ a = regAccess r := by
  cases r <;> simp [registerMap, regOffset, regAccess]

theorem regAt_eq_none {off : Nat} (h : off % 4 ≠ 0 ∨ 0x4C < off) : regAt off = none := by
  rcases h with h4 | hpast
  · rw [Option.eq_none_iff_forall_ne_some]
    intro r hr
    obtain ⟨-, -, haligned⟩ := ofNat_regOffset_toNat r
    exact h4 (regAt_eq_some_iff.mp hr ▸ haligned)
  · exact regAt_of_gt hpast

/-- Settles O50: a row is a register's offset and access right, and a view of one field reads that field. -/
theorem registerMap_columns_and_reads : Obligations.RegisterMap := by
  refine ⟨fun off r => ?_, fun ⟨off, r, a⟩ hrow => ?_, fun off => regAt_eq_none,
    fun s => ⟨rfl, rfl, rfl, rfl, rfl, rfl, rfl, rfl, readReg_tcflags_getLsbD s⟩, fun s hlen => ?_⟩
  · simp only [mem_registerMap_iff, regAt_eq_some_iff, exists_and_left, exists_eq, and_true]
  · obtain ⟨hoff, hright⟩ := mem_registerMap_iff.mp hrow
    exact ⟨hoff.symm, hright.symm⟩
  · rw [State.readReg_segCount, regOfNat_toNat hlen]

/-! ## The platform's reset -/

/-- The registers do not show what the reset keeps of the host's side. -/
theorem readReg_applyReset (s : State) (r : CtrlReg) :
    s.applyReset.readReg r = (State.resetWith s.params).readReg r := by
  cases r <;> rfl

/-- Settles O52: the reset's step, register by register. -/
theorem resetEvent : Obligations.ResetEvent := fun s es hp =>
  ⟨_, step_reset hp, readReg_applyReset { s with pending := es }, rfl, rfl, fun _ => rfl, rfl, rfl⟩

end Sys2Proof.Machine
end
